-- ==== Sys2Proof/Config.lean ====
section
/-! DEFINITION. The implementation parameters of spec/00_scope.md rule R5 with their constraints, their defaults, and the
free values (what the spec leaves unspecified after END: 93_implementation_defined.md U7). Machine/General.lean takes the
parameters as an argument; the machine is the block at the defaults (log entry 1). -/

namespace Sys2Proof

/-- A choice of the parameters (R5). The other widths of the table follow from these; `TIE` is fixed (log entry 12), `LAT`
and `HOST_BUS` are not modelled (log entry 11). -/
structure Params where
  /-- `F`: fraction bits of a sample word. -/
  F : Nat
  /-- `SW`: width of a sample word and of the operand field. -/
  SW : Nat
  /-- `BMAX`: the largest legal depth. -/
  BMAX : Nat
  /-- `BW`: width of every BITS field. -/
  BW : Nat
  deriving DecidableEq, Repr

/-- `G = SW - F`: integer bits of a sample word including the sign (R5). -/
abbrev Params.G (p : Params) : Nat := p.SW - p.F
/-- `PW = SW + BMAX`: width of the `val` and `res` ports and of PREV (R5). -/
abbrev Params.PW (p : Params) : Nat := p.SW + p.BMAX
/-- `KW = BMAX + G`: width of the `code` port (R5). -/
abbrev Params.KW (p : Params) : Nat := p.BMAX + p.G
/-- `OPW`: width of the opcode field, fixed (R5). -/
abbrev Params.OPW (_ : Params) : Nat := 4
/-- `CW = OPW + SW`: width of a command word (R5). -/
abbrev Params.CW (p : Params) : Nat := p.OPW + p.SW

/-- The constraints of R5, every one of its table. -/
abbrev Params.legal (p : Params) : Prop :=
  1 ≤ p.F ∧ p.F + 2 ≤ p.SW ∧ p.BMAX ≤ p.SW ∧ 2 ≤ p.G ∧ 1 ≤ p.BMAX ∧ p.BMAX < 2 ^ p.BW ∧
    p.F + p.BMAX + p.G ≤ p.PW ∧ p.BMAX + p.G ≤ p.KW

end Sys2Proof

namespace Sys2Proof.Config

/-- `F`: fraction bits of a sample word (R5, D2). -/
@[simp] abbrev F : Nat := 14
/-- `SW`: width of a sample word and of the operand field (R5, D2). -/
@[simp] abbrev SW : Nat := 16
/-- `G`: integer bits of a sample word including the sign (R5, D2). -/
@[simp] abbrev G : Nat := SW - F
/-- `BMAX`: the largest legal depth (R5, D3). -/
@[simp] abbrev BMAX : Nat := 16
/-- `BW`: width of every BITS field (R5, D3). -/
@[simp] abbrev BW : Nat := 5
/-- `PW`: width of the `val` and `res` ports and of PREV (R5, D4). -/
@[simp] abbrev PW : Nat := SW + BMAX
/-- `KW`: width of the `code` port (R5, D4). -/
@[simp] abbrev KW : Nat := BMAX + G
/-- `OPW`: width of the opcode field (R5, D7). -/
@[simp] abbrev OPW : Nat := 4
/-- `CW`: width of a command word (R5, D7). -/
@[simp] abbrev CW : Nat := OPW + SW
/-- The number of `STATUS.ERR` flags, one per fault code (R22). -/
@[simp] abbrev NERR : Nat := 5
/-- Width of the response field `st` (R74). -/
@[simp] abbrev STW : Nat := 4

/-- The defaults as a choice of the parameters (R5). -/
abbrev defaults : Params := { F := F, SW := SW, BMAX := BMAX, BW := BW }

/-- FREE VALUE: what a unit's BITS latch holds after END has closed it ("unspecified", R24, R161, U7).
The argument is the number of the draw. DESIGN CHOICE, log entry 5. -/
opaque freeBits : Nat → BitVec BW

/-- FREE VALUE: what a unit's PREV register holds after END has closed it ("unspecified", R25, R161, U7).
The argument is the number of the draw. DESIGN CHOICE, log entry 5. -/
opaque freePrev : Nat → BitVec PW

end Sys2Proof.Config
end

