-- ==== Sys2Proof/Word.lean ====
section
/-! DEFINITION. The bit vectors of the block by what they carry (spec/00_scope.md R6, R7; 30_encoding.md R70,
R74). Signed readings are `BitVec.toInt` (`sint`), unsigned ones `BitVec.toNat` (`uint`). The widths are
those of Config.lean at the defaults, written as numerals so that arithmetic sees them; `widths_are_the_parameters` says
that they are the same. -/

namespace Sys2Proof

/-- A command word `cw[CW-1:0]` (R70). -/
abbrev CmdWord := BitVec 20
/-- The opcode field `opc` (R70). -/
abbrev Opcode := BitVec 4
/-- The operand field `op` (R70). -/
abbrev Operand := BitVec 16
/-- A sample word: its value is `sint(w) / 2^F` (R7). -/
abbrev Sample := BitVec 16
/-- A BITS field (R21, R24, R26, R74). -/
abbrev Depth := BitVec 5
/-- A scaled integer on the `val` and `res` ports and in PREV (R12). -/
abbrev PortWord := BitVec 32
/-- The signed `code` port (R74). -/
abbrev CodeWord := BitVec 18

/-- A fault code in `st` (R74). -/
abbrev StatusWord := BitVec 4
/-- The flags `STATUS.ERR[5:1]` (R22). -/
abbrev ErrWord := BitVec 5

/-- Each width is its parameter of R5. -/
theorem widths_are_the_parameters :
    CmdWord = BitVec Config.CW ∧ Opcode = BitVec Config.OPW ∧ Operand = BitVec Config.SW ∧ Sample = BitVec Config.SW ∧
      Depth = BitVec Config.BW ∧ PortWord = BitVec Config.PW ∧ CodeWord = BitVec Config.KW ∧
      StatusWord = BitVec Config.STW ∧ ErrWord = BitVec Config.NERR :=
  ⟨rfl, rfl, rfl, rfl, rfl, rfl, rfl, rfl, rfl⟩

end Sys2Proof
end

