-- ==== Sys2Proof/Syntax.lean ====
section
/-! DEFINITION. The command set DPCM-CMD (spec/30_encoding.md R71, R72; spec/opcode_table.json): one constructor
per row of the table. A sample operand is the sample word itself; formats B and K are the integers that R76 reads
from the operand, bounded by `Instr.wellFormed`; format U is its two flags. -/

namespace Sys2Proof

/-- A command. -/
inductive Instr where
  /-- `CFG bits`: format B (R160). -/
  | cfg (bits : Nat)
  /-- `QNT x`: format S (R100). -/
  | qnt (x : Sample)
  /-- `QNT1 x`: format S (R104). -/
  | qnt1 (x : Sample)
  /-- `ENCF x`: format S (R120). -/
  | encf (x : Sample)
  /-- `ENCN x`: format S (R121). -/
  | encn (x : Sample)
  /-- `DECF x`: format S (R140). -/
  | decf (x : Sample)
  /-- `DECN k`: format K (R141). -/
  | decn (k : Nat)
  /-- `END mask`: format U, `e` selects the encoder (`op[0]`), `d` the decoder (`op[1]`) (R161). -/
  | endUnits (e d : Bool)
  /-- `STAT`: format Z (R162). -/
  | stat
  deriving DecidableEq, Repr

end Sys2Proof
end

