-- ==== Sys2Proof/WellFormed.lean ====
section
/-! DEFINITION. Which commands have a command word: the operand integer fits its field (spec/30_encoding.md R71,
R76, R78). -/

namespace Sys2Proof

/-- The command's operand fits the field its format gives it: `bits < 2^BW` (B), `k < 2^BMAX` (K). The other
formats' operands are field values already. -/
def Instr.wellFormed : Instr → Bool
  | .cfg bits => decide (bits < 2 ^ Config.BW)
  | .qnt _ => true
  | .qnt1 _ => true
  | .encf _ => true
  | .encn _ => true
  | .decf _ => true
  | .decn k => decide (k < 2 ^ Config.BMAX)
  | .endUnits _ _ => true
  | .stat => true

end Sys2Proof
end

