-- ==== Sys2Proof/Decode.lean ====
section
/-! DEFINITION. The decoder of command words, total on all `2^CW` words (spec/30_encoding.md R70 to R73, R77),
and the encoder written from the same tables. -/

namespace Sys2Proof

/-- Why a command word is illegal (R73): each is ERR_ILLEGAL to the machine (R201). -/
inductive DecodeError where
  /-- Opcode `0x0` or `0xA`..`0xF` (R73(a)). -/
  | reservedOpcode (opc : Opcode)
  /-- A defined opcode with a reserved operand bit set (R73(b)). -/
  | reservedOperandBit (opc : Opcode)
  deriving DecidableEq, Repr

/-- `opc = cw[CW-1:SW]` (R70). -/
def opcodeField (w : CmdWord) : Opcode := w.extractLsb' Config.SW Config.OPW

/-- `op = cw[SW-1:0]` (R70). -/
def operandField (w : CmdWord) : Operand := w.extractLsb' 0 Config.SW

/-- The operand bits `op[SW-1:n]` are all 0 (R71: reserved bits). -/
def reservedZero (n : Nat) (op : Operand) : Bool := op.toNat / 2 ^ n == 0

/-- `uint(op[n-1:0])` (R71, R76). -/
def lowField (n : Nat) (op : Operand) : Nat := op.toNat % 2 ^ n

/-- A command whose operand has the reserved bits `op[SW-1:n]`: illegal when one of them is set (R73(b)). -/
def ifReservedZero (n : Nat) (w : CmdWord) (i : Instr) : Except DecodeError Instr :=
  if reservedZero n (operandField w) then .ok i else .error (.reservedOperandBit (opcodeField w))

/-- The decoder (R72, R73). The reserved operand bits of format K are none at the default parameters, where
`BMAX = SW`; the check stands as the general case has it (R71, R141). -/
def decode (w : CmdWord) : Except DecodeError Instr :=
  match (opcodeField w).toNat with
  | 0x1 => ifReservedZero Config.BW w (.cfg (lowField Config.BW (operandField w)))
  | 0x2 => .ok (.qnt (operandField w))
  | 0x3 => .ok (.qnt1 (operandField w))
  | 0x4 => .ok (.encf (operandField w))
  | 0x5 => .ok (.encn (operandField w))
  | 0x6 => .ok (.decf (operandField w))
  | 0x7 => ifReservedZero Config.BMAX w (.decn (lowField Config.BMAX (operandField w)))
  | 0x8 => ifReservedZero 2 w (.endUnits ((operandField w).getLsbD 0) ((operandField w).getLsbD 1))
  | 0x9 => ifReservedZero 0 w .stat
  | _ => .error (.reservedOpcode (opcodeField w))

/-- The opcode of a command (R72). -/
def opcodeNumber : Instr → Opcode
  | .cfg _ => 0x1
  | .qnt _ => 0x2
  | .qnt1 _ => 0x3
  | .encf _ => 0x4
  | .encn _ => 0x5
  | .decf _ => 0x6
  | .decn _ => 0x7
  | .endUnits _ _ => 0x8
  | .stat => 0x9

/-- The operand field of a command (R71). -/
def operandBits : Instr → Operand
  | .cfg bits => BitVec.ofNat _ bits
  | .qnt x => x
  | .qnt1 x => x
  | .encf x => x
  | .encn x => x
  | .decf x => x
  | .decn k => BitVec.ofNat _ k
  | .endUnits e d => BitVec.ofNat _ (e.toNat + 2 * d.toNat)
  | .stat => 0

/-- The command word `{opc, op}` (R70, R78). -/
def encode (i : Instr) : CmdWord := opcodeNumber i ++ operandBits i

/-- A command word from an instruction numbered as spec/opcode_table.json numbers it: the word's `CW` bits are
bits `CW-1..0`, and a bit above them belongs to no command word. -/
def tableCmdWord (nbits w : Nat) : Option CmdWord :=
  if w % 2 ^ nbits < 2 ^ Config.CW then some (BitVec.ofNat _ (w % 2 ^ nbits)) else none

/-- What the decoder reads from a table-numbered instruction. -/
def decodeTableWord (nbits w : Nat) : Option Instr :=
  match tableCmdWord nbits w with
  | some cw =>
    match decode cw with
    | .ok i => some i
    | .error _ => none
  | none => none

end Sys2Proof
end

