-- ==== Sys2Proof/Machine/State.lean ====
section
/-! DEFINITION. The state of the block (spec/10_state.md R20 to R30) with its ports (20_memory.md R51, R52;
30_encoding.md R74), as plain data, and the state after reset (70_reset_and_hazards.md R230). -/

namespace Sys2Proof.Machine

/-- The five faults of the block (60_exceptions.md R200). A command that raises one still answers and the block goes
on (R207): they are next states, never stops of the model. -/
inductive ErrCode where
  /-- ERR_ILLEGAL, code 1: reserved opcode or reserved operand bit (R201). -/
  | illegal
  /-- ERR_PARAM, code 2: CFG operand not in `1..BMAX` (R202). -/
  | param
  /-- ERR_NOCFG, code 3: QNT, ENCF or DECF while `CFG.BITS = 0` (R203). -/
  | nocfg
  /-- ERR_SEQ, code 4: ENCN or DECN on a unit that is not active (R204). -/
  | seq
  /-- ERR_CODE, code 5: DECN with a level index above `M(DEC.BITS)` (R205). -/
  | code
  deriving DecidableEq, Repr

/-- The response bundle (R74). -/
structure Response where
  /-- Status: 0 is OK, 1 to 5 the fault code raised. -/
  st : StatusWord
  /-- `code` holds a level index produced by a quantization. -/
  cv : Bool
  /-- The depth that scales `val` and `res`. -/
  b : Depth
  /-- Level index, signed. -/
  code : CodeWord
  /-- Quantized residual as `num_b`, signed. -/
  res : PortWord
  /-- The command's main value as `num_b`, signed; for STAT the status image. -/
  val : PortWord
  deriving DecidableEq, Repr

/-- The three registers of one codec unit: ENC (R23, R24, R25), and DEC with the same widths, types and meanings
(R26). -/
structure StreamRegs where
  /-- ACTIVE: a stream is open. -/
  active : Bool
  /-- BITS: the depth of the open stream. -/
  bits : Depth
  /-- PREV: `num_b(prev_reconstructed)`, signed. -/
  prev : PortWord
  deriving DecidableEq, Repr

/-- What the host puts on the block's two inputs (R51). -/
inductive HostInput where
  /-- A command word on the command port. -/
  | command (w : CmdWord)
  /-- The reset input is asserted (R230). -/
  | reset
  deriving DecidableEq, Repr

/-- The architectural state of the block (R20), with the model's own three fields. -/
structure State where
  /-- `CFG.BITS` (R21): 0 is "not configured". -/
  cfgBits : Depth
  /-- `STATUS.ERR[5:1]` (R22): bit `c - 1` is `ERR[c]`. -/
  err : ErrWord
  /-- `ENC.ACTIVE`, `ENC.BITS`, `ENC.PREV` (R23, R24, R25). -/
  enc : StreamRegs
  /-- `DEC.ACTIVE`, `DEC.BITS`, `DEC.PREV` (R26). -/
  dec : StreamRegs
  /-- The model's own: what the host has put on the inputs and the block has not taken yet, oldest first (R51, R53).
  DESIGN CHOICE, log entry 2. -/
  inputs : List HostInput
  /-- The model's own: what the response port has delivered, oldest first (R52, R53, R74). No register of the block
  (R20, R29(c)): nothing reads it. DESIGN CHOICE, log entry 3. -/
  responses : List Response
  /-- The model's own: how many free values have been drawn. DESIGN CHOICE, log entry 5. -/
  draws : Nat
  deriving DecidableEq, Repr

/-- What would stop the model with a fault: nothing. Every command completes (R52) and the spec's five faults are next
states (R207), so this type has no constructor. Log entry 10. -/
inductive Fault where
  deriving DecidableEq, Repr

/-- What the model refuses. -/
inductive Refusal where
  /-- Raised by `exec` alone, for a command that has no meaning yet (safe: the run stops). No arm uses it. -/
  | notModelled (mnemonic : String)
  deriving DecidableEq, Repr

/-- A unit after reset: not active; its latches hold the values log entry 4 names (DESIGN CHOICE: R30 leaves them
unspecified and says "not zero"; they are values that no open stream can hold by R31). -/
def StreamRegs.reset : StreamRegs :=
  { active := false, bits := 31, prev := 0x80000000 }

/-- The block right after reset (R30, R230), with nothing on its inputs and nothing answered. -/
def State.reset : State :=
  { cfgBits := 0
    err := 0
    enc := StreamRegs.reset
    dec := StreamRegs.reset
    inputs := []
    responses := []
    draws := 0 }

end Sys2Proof.Machine
end

