-- ==== Sys2Proof/Machine/Flags.lean ====
section
/-! DEFINITION. The flags of the block: the sticky `STATUS.ERR` bits (spec/10_state.md R22, R28; 30_encoding.md R75) and
the status image that STAT reads (43_control.md R163). There are no arithmetic flags (R28). -/

namespace Sys2Proof.Machine

/-- The code a fault has in `st` (R75, R200). -/
def errStatus : ErrCode → StatusWord
  | .illegal => 1
  | .param => 2
  | .nocfg => 3
  | .seq => 4
  | .code => 5

/-- The fault's own bit of `STATUS.ERR[5:1]` (R22, R75). -/
def errMask : ErrCode → ErrWord
  | .illegal => 0b00001
  | .param => 0b00010
  | .nocfg => 0b00100
  | .seq => 0b01000
  | .code => 0b10000

/-- `STATUS.ERR[c] <- 1` (R207(b)). -/
def setErr (c : ErrCode) (s : State) : State := { s with err := s.err ||| errMask c }

/-- A latched depth as the status image shows it: 0 for a closed unit (R163). -/
def shownDepth (u : StreamRegs) : Depth := if u.active then u.bits else 0

/-- `IMAGE`, `2 + 5 + 3·BW` = 22 bits, most significant field first: DBITS, EBITS, ERR, DACT, EACT, BITS (R163). -/
def statusImage (s : State) : BitVec 22 :=
  shownDepth s.dec ++ shownDepth s.enc ++ s.err ++ BitVec.ofBool s.dec.active ++ BitVec.ofBool s.enc.active ++ s.cfgBits

end Sys2Proof.Machine
end

