-- ==== Sys2Proof/Machine/Operands.lean ====
section
/-! DEFINITION. Operand readings and the block's arithmetic over integers, in the integer forms the spec gives
(spec/40_quantizer.md R102, 41_dpcm_encoder.md R122, R123, 42_dpcm_decoder.md R142), scaled as 00_scope.md R12 says. The
rational forms, which are the definition, stand in Machine/Rational.lean. -/

namespace Sys2Proof.Machine

/-- `m = sint(op)` (R71, R76). -/
def sampleInt (x : Sample) : Int := x.toInt

/-- `floor(a / b)` for `b > 0`, never truncation (R9). -/
def floorDiv (a b : Int) : Int := a / b

/-- `M(b) = 2^b - 1`, the number of intervals between levels (R10). -/
def levelMax (b : Nat) : Int := 2 ^ b - 1

/-- `2^F`: the integer that carries 1 in a sample word (R7). -/
def unity : Int := 2 ^ Config.F

/-- `S(b) = 2^F · M(b)`, the scale of depth `b` (R12). -/
def scale (b : Nat) : Int := unity * levelMax b

/-- `clip(v, lo, hi)` on scaled integers (R8). -/
def clipInt (v lo hi : Int) : Int := if v < lo then lo else if v > hi then hi else v

/-- `clipS(z) = max(-S, min(S, z))`: `clip(·, -1, 1)` at depth `b` (R122). -/
def clipScaled (b : Nat) (z : Int) : Int := clipInt z (-(scale b)) (scale b)

/-- QNT's level index: `floor(((m + 2^F)·M + 2^F) / 2^(F+1))` (R102). -/
def quantIndex (b : Nat) (m : Int) : Int := floorDiv ((m + unity) * levelMax b + unity) (2 * unity)

/-- `num_b(lvl(b, k)) = (2k - M)·2^F` (R102). -/
def levelNum (b : Nat) (k : Int) : Int := (2 * k - levelMax b) * unity

/-- The first sample's `num_b(clip(x, -1, 1)) = clipS(m·M)` (R122, R142). -/
def firstNum (b : Nat) (m : Int) : Int := clipScaled b (m * levelMax b)

/-- Steps 1 and 2 of ENCN: `Dn = max(-2S, min(2S, m·M - P))` (R123). -/
def diffNum (b : Nat) (m P : Int) : Int := clipInt (m * levelMax b - P) (-(2 * scale b)) (2 * scale b)

/-- Step 3 of ENCN: `k = floor(((Dn + 2S)·M + 2S) / (4S))` (R123). -/
def residualIndex (b : Nat) (m P : Int) : Int :=
  floorDiv ((diffNum b m P + 2 * scale b) * levelMax b + 2 * scale b) (4 * scale b)

/-- Step 4: `R = (2k - M)·2^(F+1)`, the quantized residual (R123, R142). -/
def residualNum (b : Nat) (k : Int) : Int := (2 * k - levelMax b) * (2 * unity)

/-- Step 5: `P' = max(-S, min(S, P + R))` (R123, R142). -/
def reconNum (b : Nat) (P R : Int) : Int := clipScaled b (P + R)

/-- A scaled integer on a `PW`-bit signed port or register (R12). -/
def toPort (v : Int) : PortWord := BitVec.ofInt _ v

/-- A level index on the signed `code` port (R74). -/
def toCode (k : Int) : CodeWord := BitVec.ofInt _ k

end Sys2Proof.Machine
end

