-- ==== Sys2Proof/Machine/Ops.lean ====
section
/-! DEFINITION. The shared operations: answering, fault entry, opening, advancing and closing a stream, the reset input,
and what the host may do (spec/00_scope.md R13; 20_memory.md R51, R52; 60_exceptions.md R207; 70_reset_and_hazards.md
R230). The block has no memory (R50), and there is no return from a fault because nothing is entered (R208). -/

namespace Sys2Proof.Machine

/-- The response of a command that names no field: all zero (R13, R74). -/
def okResponse : Response := { st := 0, cv := false, b := 0, code := 0, res := 0, val := 0 }

/-- `respond(...)`: the block delivers one response bundle (R13, R52). -/
def respond (r : Response) (s : State) : State := { s with responses := s.responses ++ [r] }

/-- The response of a faulting command: `st = c`, every other field 0 (R74, R207(c)). -/
def faultResponse (c : ErrCode) : Response := { okResponse with st := errStatus c }

/-- TAKING A FAULT (R207): `STATUS.ERR[c] <- 1`, the response `st = c`, no other register written, and the block is ready
for the next command. -/
def raiseFault (c : ErrCode) (s : State) : State := respond (faultResponse c) (setErr c s)

/-- A FIRST command's effect on its unit: all three registers are overwritten (R120, R140). -/
def openStream (bits : Depth) (x : Sample) : StreamRegs :=
  { active := true, bits := bits, prev := toPort (firstNum bits.toNat (sampleInt x)) }

/-- A FIRST command's response: `val = num_b(r0)`, the sentinel 0 in `res`, `cv = 0` (R120, R140, R74). -/
def firstResponse (bits : Depth) (x : Sample) : Response :=
  { okResponse with b := bits, val := toPort (firstNum bits.toNat (sampleInt x)) }

/-- Steps 4 to 6 of a NEXT command on its unit: PREV becomes `P'`, BITS and ACTIVE keep their values (R121, R141). -/
def advanceStream (u : StreamRegs) (k : Int) : StreamRegs :=
  { u with prev := toPort (reconNum u.bits.toNat u.prev.toInt (residualNum u.bits.toNat k)) }

/-- A NEXT command's response without its code: `res = R`, `val = P'` at the unit's depth (R121, R141). -/
def nextResponse (u : StreamRegs) (k : Int) : Response :=
  { okResponse with
    b := u.bits
    res := toPort (residualNum u.bits.toNat k)
    val := toPort (reconNum u.bits.toNat u.prev.toInt (residualNum u.bits.toNat k)) }

/-- The level index that ENCN chooses from the unit's depth and PREV (R121 steps 1 to 3, R123). -/
def encodeIndex (u : StreamRegs) (x : Sample) : Int := residualIndex u.bits.toNat (sampleInt x) u.prev.toInt

/-- A unit closed by END: ACTIVE is 0, the latches hold free values (R161, U7; log entry 5). -/
def closedStream (draw : Nat) : StreamRegs :=
  { active := false, bits := Config.freeBits draw, prev := Config.freePrev draw }

/-- END's effect on the encoder when its mask bit is `e`; a unit that is not open is left as it is (R161). -/
def closeEncoder (e : Bool) (s : State) : State :=
  if e && s.enc.active then { s with enc := closedStream s.draws, draws := s.draws + 1 } else s

/-- END's effect on the decoder when its mask bit is `d`; a unit that is not open is left as it is (R161). -/
def closeDecoder (d : Bool) (s : State) : State :=
  if d && s.dec.active then { s with dec := closedStream s.draws, draws := s.draws + 1 } else s

/-- The reset input's effect (R230): every register as after reset. What the host still has on the inputs behind the
reset, and the answers already delivered, are the host's and stay (log entry 6). -/
def resetInput (s : State) : State :=
  { State.reset with inputs := s.inputs, responses := s.responses, draws := s.draws }

/-- An illegal command word: ERR_ILLEGAL and nothing else (R73, R201). -/
def illegalCommand (s : State) : State := raiseFault .illegal s

/-- The block takes the oldest host input; none is no change (R52, R57). -/
def takeInput (s : State) : Option HostInput × State :=
  match s.inputs with
  | [] => (none, s)
  | e :: rest => (some e, { s with inputs := rest })

/-- HOST: present a command word on the command port (R51, R53). -/
def present (w : CmdWord) (s : State) : State := { s with inputs := s.inputs ++ [.command w] }

/-- HOST: assert the reset input now; commands not yet answered are discarded (R230; log entry 6). -/
def assertReset (s : State) : State := { s with inputs := [.reset] }

end Sys2Proof.Machine
end

