-- ==== Sys2Proof/Machine/Control.lean ====
section
/-! DEFINITION. The control commands: CFG, END and STAT (spec/43_control.md). -/

namespace Sys2Proof.Machine

/-- `CFG bits` (R160): ERR_PARAM when `bits` is not in `1..BMAX`, else `CFG.BITS <- bits`. A reserved operand bit is
refused before, at decoding (R73, R206). -/
def execCfg (bits : Nat) (s : State) : Host.Outcome State Fault Refusal :=
  if bits < 1 ∨ bits > Config.BMAX then .next (raiseFault .param s)
  else .next (respond okResponse { s with cfgBits := BitVec.ofNat _ bits })

/-- `END mask` (R161): closes the selected units. -/
def execEnd (e d : Bool) (s : State) : Host.Outcome State Fault Refusal :=
  .next (respond okResponse (closeDecoder d (closeEncoder e s)))

/-- `STAT` (R162): answers the status image, zero-extended; writes nothing. -/
def execStat (s : State) : Host.Outcome State Fault Refusal :=
  .next (respond { okResponse with val := (statusImage s).setWidth _ } s)

end Sys2Proof.Machine
end

