-- ==== Sys2Proof/Machine/Decoder.lean ====
section
/-! DEFINITION. The DPCM decoder: DECF and DECN (spec/42_dpcm_decoder.md). -/

namespace Sys2Proof.Machine

/-- `DECF x` (R140, R142): ERR_NOCFG when not configured, else opens the decode stream at depth `CFG.BITS`. -/
def execDecf (x : Sample) (s : State) : Host.Outcome State Fault Refusal :=
  if s.cfgBits = 0 then .next (raiseFault .nocfg s)
  else .next (respond (firstResponse s.cfgBits x) { s with dec := openStream s.cfgBits x })

/-- `DECN k` (R141, R142): ERR_SEQ when no stream is open, then ERR_CODE when `k > M(DEC.BITS)`, else steps 4 to 6. -/
def execDecn (k : Nat) (s : State) : Host.Outcome State Fault Refusal :=
  if s.dec.active then
    if (k : Int) > levelMax s.dec.bits.toNat then .next (raiseFault .code s)
    else .next (respond (nextResponse s.dec k) { s with dec := advanceStream s.dec k })
  else .next (raiseFault .seq s)

end Sys2Proof.Machine
end

