-- ==== Sys2Proof/Machine/Encoder.lean ====
section
/-! DEFINITION. The DPCM encoder: ENCF and ENCN (spec/41_dpcm_encoder.md). -/

namespace Sys2Proof.Machine

/-- `ENCF x` (R120, R122): ERR_NOCFG when not configured, else opens the encode stream at depth `CFG.BITS`. -/
def execEncf (x : Sample) (s : State) : Host.Outcome State Fault Refusal :=
  if s.cfgBits = 0 then .next (raiseFault .nocfg s)
  else .next (respond (firstResponse s.cfgBits x) { s with enc := openStream s.cfgBits x })

/-- ENCN's response: a NEXT response with its code (R121, R74). -/
def encodeResponse (u : StreamRegs) (x : Sample) : Response :=
  { nextResponse u (encodeIndex u x) with cv := true, code := toCode (encodeIndex u x) }

/-- `ENCN x` (R121, R123): ERR_SEQ when no stream is open, else one transition at depth `ENC.BITS`. -/
def execEncn (x : Sample) (s : State) : Host.Outcome State Fault Refusal :=
  if s.enc.active then
    .next (respond (encodeResponse s.enc x) { s with enc := advanceStream s.enc (encodeIndex s.enc x) })
  else .next (raiseFault .seq s)

end Sys2Proof.Machine
end

