-- ==== Sys2Proof/Machine/Quantizer.lean ====
section
/-! DEFINITION. The uniform quantizer: QNT and QNT1 (spec/40_quantizer.md). Two operations, kept distinct (R105). -/

namespace Sys2Proof.Machine

/-- QNT's response at depth `bits` (R100, R102). -/
def quantResponse (bits : Depth) (x : Sample) : Response :=
  { okResponse with
    cv := true
    b := bits
    code := toCode (quantIndex bits.toNat (sampleInt x))
    val := toPort (levelNum bits.toNat (quantIndex bits.toNat (sampleInt x))) }

/-- `QNT x` (R100, R101): ERR_NOCFG when not configured, else the level nearest to `x`, unclamped. -/
def execQnt (x : Sample) (s : State) : Host.Outcome State Fault Refusal :=
  if s.cfgBits = 0 then .next (raiseFault .nocfg s)
  else .next (respond (quantResponse s.cfgBits x) s)

/-- QNT1's response (R104): the two-level grid at `b = 1`. -/
def thresholdResponse (x : Sample) : Response :=
  if 0 ≤ sampleInt x then { okResponse with cv := true, b := 1, code := 1, val := toPort unity }
  else { okResponse with cv := true, b := 1, code := 0, val := toPort (-unity) }

/-- `QNT1 x` (R104): the hard threshold at zero; reads and writes no register, never faults. -/
def execQnt1 (x : Sample) (s : State) : Host.Outcome State Fault Refusal :=
  .next (respond (thresholdResponse x) s)

end Sys2Proof.Machine
end

