-- ==== Sys2Proof/Machine/Dispatch.lean ====
section
/-! DEFINITION. The dispatch of a decoded command to its meaning, one arm per command. -/

namespace Sys2Proof.Machine

def exec (i : Instr) (s : State) : Host.Outcome State Fault Refusal :=
  match i with
  | .cfg bits => Sys2Proof.Machine.execCfg bits s
  | .qnt x => Sys2Proof.Machine.execQnt x s
  | .qnt1 x => Sys2Proof.Machine.execQnt1 x s
  | .encf x => Sys2Proof.Machine.execEncf x s
  | .encn x => Sys2Proof.Machine.execEncn x s
  | .decf x => Sys2Proof.Machine.execDecf x s
  | .decn k => Sys2Proof.Machine.execDecn k s
  | .endUnits e d => Sys2Proof.Machine.execEnd e d s
  | .stat => Sys2Proof.Machine.execStat s

end Sys2Proof.Machine
end

