-- ==== Sys2Proof/Machine/Step.lean ====
section
/-! DEFINITION. One step: the block takes the oldest host input and executes it as one indivisible transaction
(spec/20_memory.md R52, R53; 60_exceptions.md R201; 70_reset_and_hazards.md R230). -/

namespace Sys2Proof.Machine

/-- One transaction. With nothing on the inputs the block waits (R57). -/
def step (s : State) : Host.Outcome State Fault Refusal :=
  match takeInput s with
  | (none, s') => .next s'
  | (some .reset, s') => .next (resetInput s')
  | (some (.command w), s') =>
    match decode w with
    | .ok i => exec i s'
    | .error _ => .next (illegalCommand s')

/-- `s` with a table-numbered instruction as the next command on the command port (log entry 7). -/
def State.withFetchWord (s : State) (nbits w : Nat) : State :=
  match tableCmdWord nbits w with
  | some cw => { s with inputs := .command cw :: s.inputs }
  | none => s

end Sys2Proof.Machine
end

