-- ==== Sys2Proof/Machine/Assembler.lean ====
section
/-! DEFINITION. The assembler notation (spec/30_encoding.md R78), over lists of characters, and the pseudo-instructions
(R79). It is the spec's notation for command words, no part of the block. Its lexical details are DESIGN CHOICE, log
entry 15. -/

namespace Sys2Proof.Machine

/-- Why a line does not assemble. -/
inductive AsmError where
  /-- No mnemonic of R72. -/
  | unknownMnemonic
  /-- The operand is missing, is one too many, or has not the form of its format (R78). -/
  | badOperand
  /-- A rational literal that is no multiple of `2^-F`: "an assembly error, never rounded" (R78). -/
  | notRepresentable
  /-- A literal outside its range (R78). -/
  | outOfRange
  deriving DecidableEq, Repr

/-- `;` starts a comment (R78). -/
def dropComment (line : List Char) : List Char := line.takeWhile (· ≠ ';')

/-- What separates a mnemonic from its operand. -/
def isBlank (c : Char) : Bool := c == ' ' || c == '\t'

/-- The blank-separated words of a line; `word` is the word being read, last character first. -/
def splitWords (word : List Char) : List Char → List (List Char)
  | [] => if word = [] then [] else [word.reverse]
  | c :: rest =>
    if isBlank c then (if word = [] then splitWords [] rest else word.reverse :: splitWords [] rest)
    else splitWords (c :: word) rest

/-- A decimal digit. -/
def decimalDigit (c : Char) : Option Nat :=
  if '0' ≤ c ∧ c ≤ '9' then some (c.toNat - '0'.toNat) else none

/-- A hexadecimal digit, of either case. -/
def hexDigit (c : Char) : Option Nat :=
  if 'A' ≤ c ∧ c ≤ 'F' then some (c.toNat - 'A'.toNat + 10)
  else if 'a' ≤ c ∧ c ≤ 'f' then some (c.toNat - 'a'.toNat + 10)
  else decimalDigit c

/-- A number in base `base`, most significant digit first, on top of `acc`. -/
def digitsFrom (base : Nat) (digit : Char → Option Nat) (acc : Nat) : List Char → Option Nat
  | [] => some acc
  | c :: rest =>
    match digit c with
    | some d => digitsFrom base digit (acc * base + d) rest
    | none => none

/-- A decimal integer: one digit or more. -/
def decimalInteger (cs : List Char) : Option Nat := if cs = [] then none else digitsFrom 10 decimalDigit 0 cs

/-- An unsigned rational literal `n`, `n/d` or `n.f` as numerator and denominator (R78). -/
def unsignedRational (cs : List Char) : Option (Nat × Nat) :=
  let whole := cs.takeWhile fun c => c != '/' && c != '.'
  match decimalInteger whole, cs.drop whole.length with
  | some n, [] => some (n, 1)
  | some n, '/' :: rest =>
    match decimalInteger rest with
    | some 0 => none
    | some d => some (n, d)
    | none => none
  | some n, _ :: rest =>
    match decimalInteger rest with
    | some f => some (n * 10 ^ rest.length + f, 10 ^ rest.length)
    | none => none
  | none, _ => none

/-- A rational literal, with its sign (R78). -/
def rationalLiteral : List Char → Option (Int × Nat)
  | '-' :: rest => (unsignedRational rest).map fun p => (-(p.1 : Int), p.2)
  | cs => (unsignedRational cs).map fun p => ((p.1 : Int), p.2)

/-- The sample word of the rational `n / d`: exact or refused (R78). -/
def sampleOfRational (n : Int) (d : Nat) : Except AsmError Sample :=
  if n * unity % d ≠ 0 then .error .notRepresentable
  else if n * unity / d < -2 ^ (Config.SW - 1) ∨ 2 ^ (Config.SW - 1) ≤ n * unity / d then .error .outOfRange
  else .ok (BitVec.ofInt _ (n * unity / d))

/-- A format S operand: `#0x` and exactly `SW/4` hex digits, or a rational literal (R78). -/
def sampleOperand : List Char → Except AsmError Sample
  | '#' :: '0' :: 'x' :: hex =>
    if hex.length = Config.SW / 4 then
      match digitsFrom 16 hexDigit 0 hex with
      | some w => .ok (BitVec.ofNat _ w)
      | none => .error .badOperand
    else .error .badOperand
  | cs =>
    match rationalLiteral cs with
    | some (n, d) => sampleOfRational n d
    | none => .error .badOperand

/-- A format B or K operand: a decimal integer below `2^n` (R78). -/
def integerOperand (n : Nat) (cs : List Char) : Except AsmError Nat :=
  match decimalInteger cs with
  | some v => if v < 2 ^ n then .ok v else .error .outOfRange
  | none => .error .badOperand

/-- A format U operand: `NONE`, `ENC`, `DEC`, `BOTH`, for `op` = 0, 1, 2, 3, as (encoder, decoder) (R78). -/
def maskOperand (cs : List Char) : Except AsmError (Bool × Bool) :=
  if cs = ['N', 'O', 'N', 'E'] then .ok (false, false)
  else if cs = ['E', 'N', 'C'] then .ok (true, false)
  else if cs = ['D', 'E', 'C'] then .ok (false, true)
  else if cs = ['B', 'O', 'T', 'H'] then .ok (true, true)
  else .error .badOperand

/-- A mnemonic with its one operand (R72, R78). -/
def assembleWithOperand (mnemonic operand : List Char) : Except AsmError Instr :=
  if mnemonic = ['C', 'F', 'G'] then (integerOperand Config.BW operand).map .cfg
  else if mnemonic = ['Q', 'N', 'T'] then (sampleOperand operand).map .qnt
  else if mnemonic = ['Q', 'N', 'T', '1'] then (sampleOperand operand).map .qnt1
  else if mnemonic = ['E', 'N', 'C', 'F'] then (sampleOperand operand).map .encf
  else if mnemonic = ['E', 'N', 'C', 'N'] then (sampleOperand operand).map .encn
  else if mnemonic = ['D', 'E', 'C', 'F'] then (sampleOperand operand).map .decf
  else if mnemonic = ['D', 'E', 'C', 'N'] then (integerOperand Config.BMAX operand).map .decn
  else if mnemonic = ['E', 'N', 'D'] then (maskOperand operand).map fun p => .endUnits p.1 p.2
  else if mnemonic = ['S', 'T', 'A', 'T'] then .error .badOperand
  else .error .unknownMnemonic

/-- The mnemonics that take an operand (R72). -/
def mnemonicsWithOperand : List (List Char) :=
  [['C', 'F', 'G'], ['Q', 'N', 'T'], ['Q', 'N', 'T', '1'], ['E', 'N', 'C', 'F'], ['E', 'N', 'C', 'N'],
    ['D', 'E', 'C', 'F'], ['D', 'E', 'C', 'N'], ['E', 'N', 'D']]

/-- One line (R78): none for a line with no command. -/
def assembleLine (line : List Char) : Except AsmError (Option Instr) :=
  match splitWords [] (dropComment line) with
  | [] => .ok none
  | [mnemonic] =>
    if mnemonic = ['S', 'T', 'A', 'T'] then .ok (some .stat)
    else if mnemonic ∈ mnemonicsWithOperand then .error .badOperand
    else .error .unknownMnemonic
  | [mnemonic, operand] => (assembleWithOperand mnemonic operand).map some
  | _ => .error .badOperand

/-- The four pseudo-instructions (R79). -/
inductive Pseudo where
  /-- `QUANTIZE b; x0, x1, ...` -/
  | quantize (b : Nat) (xs : List Sample)
  /-- `QUANTIZE1 x0, ...` -/
  | quantize1 (xs : List Sample)
  /-- `ENCODE b; x0, x1, ...` -/
  | encode (b : Nat) (xs : List Sample)
  /-- `DECODE b; x0; k1, ...` -/
  | decode (b : Nat) (x0 : Sample) (ks : List Nat)
  deriving DecidableEq, Repr

/-- The expansion (R79); `ENCODE` with an empty list has none, the assembler refuses it. -/
def expandPseudo : Pseudo → Option (List Instr)
  | .quantize b xs => some (.cfg b :: xs.map .qnt)
  | .quantize1 xs => some (xs.map .qnt1)
  | .encode _ [] => none
  | .encode b (x :: xs) => some (.cfg b :: .encf x :: xs.map .encn ++ [.endUnits true false])
  | .decode b x ks => some (.cfg b :: .decf x :: ks.map .decn ++ [.endUnits false true])

end Sys2Proof.Machine
end

