-- ==== Sys2Proof/Machine/Rational.lean ====
section
/-! DEFINITION. The block's arithmetic over exact rationals (spec/00_scope.md R7 to R12): the definition from which the
integer forms of Machine/Operands.lean are derived (R12; log entry 8). The statements compare the machine with these. -/

namespace Sys2Proof.Machine

/-- `val(w) = sint(w) / 2^F` (R7). -/
def sampleValue (x : Sample) : ℚ := (sampleInt x : ℚ) / 2 ^ Config.F

/-- `clip(v, lo, hi)` (R8). -/
def clip (v lo hi : ℚ) : ℚ := if v < lo then lo else if v > hi then hi else v

/-- `rnd(v) = floor(v + 1/2)`: ties to the larger integer (R9). -/
def rnd (v : ℚ) : Int := ⌊v + 1 / 2⌋

/-- `L(b) = 2^b` (R10). -/
def levels (b : Nat) : Nat := 2 ^ b

/-- `lvl(b, k) = -1 + 2k / M(b)`, for every integer `k` (R10). -/
def lvl (b : Nat) (k : Int) : ℚ := -1 + 2 * k / levelMax b

/-- `Qidx(b, v) = rnd(((v + 1) / 2) · M(b))` (R11). -/
def Qidx (b : Nat) (v : ℚ) : Int := rnd ((v + 1) / 2 * levelMax b)

/-- `Q(b, v) = lvl(b, Qidx(b, v))` (R11). -/
def Q (b : Nat) (v : ℚ) : ℚ := lvl b (Qidx b v)

/-- `v` is a tie of `Qidx` at depth `b`: the number that `rnd` rounds is half an odd integer (R11). -/
def isTie (b : Nat) (v : ℚ) : Prop := ∃ n : Int, (v + 1) / 2 * levelMax b = n + 1 / 2

/-- `num_b(v) = v · S(b)` (R12). -/
def numOf (b : Nat) (v : ℚ) : ℚ := v * scale b

/-- The value of a port or of PREV at depth `b`: `sint(port) / S(b)` (R12). -/
def portValue (b : Nat) (w : PortWord) : ℚ := (w.toInt : ℚ) / scale b

/-- What one NEXT command computes (R121, R141). -/
structure Transition where
  /-- The level index `k`. -/
  code : Int
  /-- `diff_quantized`. -/
  dq : ℚ
  /-- `reconstructed[i]`. -/
  recon : ℚ
  deriving DecidableEq, Repr

/-- Steps 4 and 5 (R121, R141): `dq = lvl(b, k) · 2`, `rec = clip(prev + dq, -1, 1)`. -/
def decodeTransition (b : Nat) (prev : ℚ) (k : Int) : Transition :=
  { code := k, dq := lvl b k * 2, recon := clip (prev + lvl b k * 2) (-1) 1 }

/-- Steps 1 to 5 of the encoder (R121): `diff = x - prev`, `dn = clip(diff / 2, -1, 1)`, `k = Qidx(b, dn)`, then the
decoder's steps. -/
def encodeTransition (b : Nat) (prev x : ℚ) : Transition :=
  decodeTransition b prev (Qidx b (clip ((x - prev) / 2) (-1) 1))

end Sys2Proof.Machine
end

