-- ==== Sys2Proof/Machine/General.lean ====
section
/-! DEFINITION. The block for every choice of the parameters (spec/00_scope.md R5: "the model takes each as an argument"),
command by command in the rules' own pseudocode over exact rationals, with the type that 20_memory.md R52 gives the step,
`State × CommandWord → State × Response`. A closed unit is `none`: its latches are forgotten (10_state.md R30, 43_control.md
R161). The machine of Machine/Step.lean, which adds the ports and computes with integers, is this block at the defaults;
the statement `MachineIsTheGeneralBlockAtDefaults` says so. Log entry 1. -/

namespace Sys2Proof.General

open Sys2Proof.Machine

/-- An open stream of a unit: its latched depth and PREV (R24, R25, R26). -/
structure Stream (p : Params) where
  /-- BITS. -/
  bits : BitVec p.BW
  /-- PREV: `num_b(prev_reconstructed)`, signed. -/
  prev : BitVec p.PW
  deriving DecidableEq, Repr

/-- The registers of the block (R20); ACTIVE is 1 where a stream is there. -/
structure Block (p : Params) where
  /-- `CFG.BITS` (R21). -/
  cfgBits : BitVec p.BW
  /-- `STATUS.ERR[5:1]` (R22). -/
  err : ErrWord
  /-- The encoder's stream (R23, R24, R25). -/
  enc : Option (Stream p)
  /-- The decoder's stream (R26). -/
  dec : Option (Stream p)
  deriving DecidableEq, Repr

/-- The response bundle (R74). -/
structure Answer (p : Params) where
  /-- Status (R75). -/
  st : StatusWord := 0
  /-- `code` holds a level index produced by a quantization. -/
  cv : Bool := false
  /-- The depth that scales `val` and `res`. -/
  b : BitVec p.BW := 0
  /-- Level index, signed. -/
  code : BitVec p.KW := 0
  /-- Quantized residual, signed. -/
  res : BitVec p.PW := 0
  /-- The command's main value, signed; for STAT the status image. -/
  val : BitVec p.PW := 0
  deriving DecidableEq, Repr

/-- The block right after reset (R30, R230). -/
def Block.reset (p : Params) : Block p := { cfgBits := 0, err := 0, enc := none, dec := none }

/-- `S(b) = 2^F · M(b)` (R12). -/
def scale (p : Params) (b : Nat) : Int := 2 ^ p.F * levelMax b

/-- `num_b(v)` on a port (R12): every value a rule puts there is a whole number of `1 / S(b)`, so the floor is exact. -/
def toPort (p : Params) (b : Nat) (v : ℚ) : BitVec p.PW := BitVec.ofInt _ ⌊v * scale p b⌋

/-- The value of a port at depth `b`: `sint(port) / S(b)` (R12). -/
def portValue (p : Params) (b : Nat) (w : BitVec p.PW) : ℚ := (w.toInt : ℚ) / scale p b

/-- A level index on the `code` port (R74). -/
def toCode (p : Params) (k : Int) : BitVec p.KW := BitVec.ofInt _ k

/-- `val(w) = sint(w) / 2^F` (R7). -/
def sampleValue (p : Params) (x : BitVec p.SW) : ℚ := (x.toInt : ℚ) / 2 ^ p.F

/-- `raise c` (R13, R207): the flag and the response, nothing else. -/
def raise {p : Params} (c : ErrCode) (s : Block p) : Block p × Answer p :=
  ({ s with err := s.err ||| errMask c }, { st := errStatus c })

/-- A reserved operand bit, one of `op[SW-1:n]`, is set (R71). -/
def reservedSet {p : Params} (n : Nat) (op : BitVec p.SW) : Bool := op.toNat / 2 ^ n != 0

/-- `CFG bits` (R160). -/
def cfg {p : Params} (op : BitVec p.SW) (s : Block p) : Block p × Answer p :=
  if reservedSet p.BW op then raise .illegal s
  else if op.toNat < 1 ∨ op.toNat > p.BMAX then raise .param s
  else ({ s with cfgBits := BitVec.ofNat _ op.toNat }, {})

/-- `QNT x` (R100). -/
def qnt {p : Params} (x : BitVec p.SW) (s : Block p) : Block p × Answer p :=
  if s.cfgBits = 0 then raise .nocfg s
  else
    (s,
      { cv := true
        b := s.cfgBits
        code := toCode p (Qidx s.cfgBits.toNat (sampleValue p x))
        val := toPort p s.cfgBits.toNat (Q s.cfgBits.toNat (sampleValue p x)) })

/-- `QNT1 x` (R104). -/
def qnt1 {p : Params} (x : BitVec p.SW) (s : Block p) : Block p × Answer p :=
  if 0 ≤ x.toInt then (s, { cv := true, b := 1, code := 1, val := toPort p 1 1 })
  else (s, { cv := true, b := 1, code := 0, val := toPort p 1 (-1) })

/-- The stream a FIRST command opens (R120, R140). -/
def openStream {p : Params} (b : BitVec p.BW) (x : BitVec p.SW) : Stream p :=
  { bits := b, prev := toPort p b.toNat (clip (sampleValue p x) (-1) 1) }

/-- `ENCF x` (R120). -/
def encf {p : Params} (x : BitVec p.SW) (s : Block p) : Block p × Answer p :=
  if s.cfgBits = 0 then raise .nocfg s
  else
    ({ s with enc := some (openStream s.cfgBits x) }, { b := s.cfgBits, val := (openStream s.cfgBits x).prev })

/-- `DECF x` (R140). -/
def decf {p : Params} (x : BitVec p.SW) (s : Block p) : Block p × Answer p :=
  if s.cfgBits = 0 then raise .nocfg s
  else
    ({ s with dec := some (openStream s.cfgBits x) }, { b := s.cfgBits, val := (openStream s.cfgBits x).prev })

/-- Steps 1 to 5 of ENCN on a stream (R121). -/
def encodeStep {p : Params} (u : Stream p) (x : BitVec p.SW) : Transition :=
  encodeTransition u.bits.toNat (portValue p u.bits.toNat u.prev) (sampleValue p x)

/-- Steps 4 and 5 of DECN on a stream (R141). -/
def decodeStep {p : Params} (u : Stream p) (k : Nat) : Transition :=
  decodeTransition u.bits.toNat (portValue p u.bits.toNat u.prev) k

/-- `ENCN x` (R121). -/
def encn {p : Params} (x : BitVec p.SW) (s : Block p) : Block p × Answer p :=
  match s.enc with
  | none => raise .seq s
  | some u =>
    ({ s with enc := some { u with prev := toPort p u.bits.toNat (encodeStep u x).recon } },
      { cv := true
        b := u.bits
        code := toCode p (encodeStep u x).code
        res := toPort p u.bits.toNat (encodeStep u x).dq
        val := toPort p u.bits.toNat (encodeStep u x).recon })

/-- `DECN k` (R141), with the general case's reserved operand bits. -/
def decn {p : Params} (op : BitVec p.SW) (s : Block p) : Block p × Answer p :=
  if reservedSet p.BMAX op then raise .illegal s
  else
    match s.dec with
    | none => raise .seq s
    | some u =>
      if (op.toNat : Int) > levelMax u.bits.toNat then raise .code s
      else
        ({ s with dec := some { u with prev := toPort p u.bits.toNat (decodeStep u op.toNat).recon } },
          { b := u.bits
            res := toPort p u.bits.toNat (decodeStep u op.toNat).dq
            val := toPort p u.bits.toNat (decodeStep u op.toNat).recon })

/-- `END mask` (R161). -/
def endUnits {p : Params} (op : BitVec p.SW) (s : Block p) : Block p × Answer p :=
  if reservedSet 2 op then raise .illegal s
  else
    ({ s with
        enc := if op.getLsbD 0 then none else s.enc
        dec := if op.getLsbD 1 then none else s.dec },
      {})

/-- A latched depth as the image shows it: 0 for a closed unit (R163). -/
def shownDepth {p : Params} (u : Option (Stream p)) : BitVec p.BW :=
  match u with
  | none => 0
  | some v => v.bits

/-- `IMAGE`, `2 + 5 + 3·BW` bits (R163). -/
def image {p : Params} (s : Block p) :=
  shownDepth s.dec ++ shownDepth s.enc ++ s.err ++ BitVec.ofBool s.dec.isSome ++ BitVec.ofBool s.enc.isSome ++ s.cfgBits

/-- `STAT` (R162). An image wider than `val`, which R5's constraints do not rule out, loses its upper bits: DESIGN CHOICE,
log entry 19. -/
def stat {p : Params} (op : BitVec p.SW) (s : Block p) : Block p × Answer p :=
  if reservedSet 0 op then raise .illegal s else (s, { val := (image s).setWidth _ })

/-- The step function of R52: the command of the word's opcode, on its operand (R70, R72, R73). -/
def step {p : Params} (s : Block p) (w : BitVec p.CW) : Block p × Answer p :=
  let op : BitVec p.SW := w.extractLsb' 0 p.SW
  match (w.extractLsb' p.SW p.OPW).toNat with
  | 0x1 => cfg op s
  | 0x2 => qnt op s
  | 0x3 => qnt1 op s
  | 0x4 => encf op s
  | 0x5 => encn op s
  | 0x6 => decf op s
  | 0x7 => decn op s
  | 0x8 => endUnits op s
  | 0x9 => stat op s
  | _ => raise .illegal s

end Sys2Proof.General
end

