-- ==== Sys2Proof/Machine/HostFunctions.lean ====
section
/-! DEFINITION. The host-side reference functions (spec/50_host_collaborators.md R180 to R188): the sequence contracts of
the block's algorithms, and the Error Injector and the Evaluator, which lie outside the block (00_scope.md R4; log
entry 16). No step of the machine calls them. -/

namespace Sys2Proof.Machine

/-- `quantize(signal, bits)` (R180): elementwise, the empty signal included. Refused where the precondition `bits ≥ 1`
fails and the spec gives no result (U3). -/
def quantizeSignal (bits : Nat) (signal : List ℚ) : Option (List ℚ) :=
  if bits < 1 then none else some (signal.map (Q bits))

/-- The 1-bit variant over a sequence (R181). -/
def quantize1bit (signal : List ℚ) : List ℚ := signal.map fun x => if 0 ≤ x then 1 else -1

/-- The left fold of R182 from `prev_reconstructed`: the pairs (`reconstructed[i]`, `residuals[i]`), `i ≥ 1`. -/
def encodeFrom (bits : Nat) (prev : ℚ) : List ℚ → List (ℚ × ℚ)
  | [] => []
  | x :: rest =>
    ((encodeTransition bits prev x).recon, (encodeTransition bits prev x).dq) ::
      encodeFrom bits (encodeTransition bits prev x).recon rest

/-- `dpcm_encode(signal, bits)` as the list of (`reconstructed[i]`, `residuals[i]`) (R182). Refused where D0 leaves it
undefined: the empty signal and `bits < 1` (U1, U3). -/
def dpcmEncode (bits : Nat) : List ℚ → Option (List (ℚ × ℚ))
  | [] => none
  | x :: rest => if bits < 1 then none else some ((clip x (-1) 1, 0) :: encodeFrom bits (clip x (-1) 1) rest)

/-- The decoder's fold from `prev_reconstructed` (R183): `reconstructed[i]`, `i ≥ 1`. -/
def decodeFrom (bits : Nat) (prev : ℚ) : List Int → List ℚ
  | [] => []
  | k :: rest => (decodeTransition bits prev k).recon :: decodeFrom bits (decodeTransition bits prev k).recon rest

/-- `dpcm_decode(first, codes, bits)` (R183). Refused when a precondition fails: `bits ≥ 1`, every code in
`0..2^bits - 1`. -/
def dpcmDecode (bits : Nat) (first : ℚ) (codes : List Int) : Option (List ℚ) :=
  if 1 ≤ bits ∧ ∀ k ∈ codes, 0 ≤ k ∧ k ≤ levelMax bits then
    some (clip first (-1) 1 :: decodeFrom bits (clip first (-1) 1) codes)
  else none

/-- `num_errors = floor(error_rate · length)` (R184; 90_conflicts.md C1: `floor`, not `round`). -/
def errorCount (rate : ℚ) (n : Nat) : Nat := ⌊rate * n⌋.toNat

/-- `chosen` is a draw of `count` distinct positions of a sequence of length `n` (R184, R186). -/
def isDraw (chosen : List Nat) (count n : Nat) : Bool :=
  decide chosen.Nodup && chosen.all (· < n) && chosen.length == count

/-- Replace the value at each chosen position by `-value/2` (R184), counting positions from `i`. -/
def corruptFrom (chosen : List Nat) (i : Nat) : List ℚ → List ℚ
  | [] => []
  | x :: rest => (if i ∈ chosen then -x / 2 else x) :: corruptFrom chosen (i + 1) rest

/-- `inject_errors(reconstructed, error_rate)` with the random draw as an argument (R184, R186, U10). Refused for
`error_rate` outside [0, 1] (U5) and for positions that are no draw of the right size. -/
def injectErrors (rate : ℚ) (chosen : List Nat) (signal : List ℚ) : Option (List ℚ × Nat) :=
  if 0 ≤ rate ∧ rate ≤ 1 ∧ isDraw chosen (errorCount rate signal.length) signal.length = true then
    some (corruptFrom chosen 0 signal, errorCount rate signal.length)
  else none

/-- `snr_db` of R185, kept exact: `+∞`, or `10·log10` of an exact ratio. -/
inductive Snr where
  /-- `mse = 0`. -/
  | infinite
  /-- `10·log10(ratio)` dB, `ratio > 0`. -/
  | tenLog10 (ratio : ℚ)
  deriving DecidableEq, Repr

/-- The value of `snr_db` (R185): `+∞`, or the real number `10·log10(ratio)`, with the real base-10 logarithm (G4, log
entry 18). It is a relation because a real number is not computed; each `Snr` has exactly one value. -/
def Snr.hasDecibels : Snr → EReal → Prop
  | .infinite, d => d = ⊤
  | .tenLog10 ratio, d => d = ((10 * Real.logb 10 (ratio : ℝ) : ℝ) : EReal)

/-- The Evaluator's answer (R185). `snr` is none where R185 defines no value: the logarithm of 0 (U6). -/
structure Evaluation where
  /-- Mean square error. -/
  mse : ℚ
  /-- Signal to noise ratio. -/
  snr : Option Snr
  deriving DecidableEq, Repr

/-- `(1/n)·Σ x²` (R185). -/
def meanSquare (xs : List ℚ) : ℚ := (xs.map fun x => x * x).sum / xs.length

/-- `mse` (R185). -/
def meanSquareError (original distorted : List ℚ) : ℚ := meanSquare (List.zipWith (· - ·) original distorted)

/-- `evaluate(original, distorted)` (R185). Refused for unequal lengths and for empty input (U2, U15). -/
def evaluate (original distorted : List ℚ) : Option Evaluation :=
  if original.length = distorted.length ∧ original ≠ [] then
    some
      { mse := meanSquareError original distorted
        snr :=
          if meanSquareError original distorted = 0 then some .infinite
          else if meanSquare original = 0 then none
          else some (.tenLog10 (meanSquare original / meanSquareError original distorted)) }
  else none

end Sys2Proof.Machine
end

