-- ==== Sys2Proof/Safety.lean ====
section
/-! DEFINITION. What counts as a good state and a safe run, in the terms the statements use (spec/10_state.md R31,
60_exceptions.md R206 to R208, 20_memory.md R61). -/

namespace Sys2Proof.Machine

/-- (I2), (I3) of R31: an open unit's depth is in `1..BMAX` and its PREV is within `[-S, S]`. -/
abbrev streamOk (u : StreamRegs) : Prop :=
  u.active = true →
    1 ≤ u.bits.toNat ∧ u.bits.toNat ≤ Config.BMAX ∧
      -(scale u.bits.toNat) ≤ u.prev.toInt ∧ u.prev.toInt ≤ scale u.bits.toNat

/-- (I1), (I2), (I3) of R31. (I4) is about two states; (I5) holds by the type of PREV. -/
abbrev Inv (s : State) : Prop :=
  s.cfgBits.toNat ≤ Config.BMAX ∧ streamOk s.enc ∧ streamOk s.dec

/-- "`STATUS.ERR` is 0": no fault occurred since reset (R208). -/
abbrev faultFree (s : State) : Prop := s.err = 0

/-- The state after fault number `c` (1..5), written out from R207: the flag `ERR[c]` and a response of zeros with
`st = c`; everything else as it was. -/
def afterFault (c : Nat) (s : State) : State :=
  { s with
    err := s.err ||| BitVec.ofNat _ (2 ^ (c - 1))
    responses := s.responses ++ [{ st := BitVec.ofNat _ c, cv := false, b := 0, code := 0, res := 0, val := 0 }] }

/-- The state after an ENCN that completes with response `r`, written out from R121: PREV is `r.val`, `ENC.ACTIVE` is 1 and
`ENC.BITS` as they were, nothing else changes. -/
def afterEncn (r : Response) (s : State) : State :=
  { s with enc := { active := true, bits := s.enc.bits, prev := r.val }, responses := s.responses ++ [r] }

/-- The state after a DECN that completes with response `r`, written out from R141. -/
def afterDecn (r : Response) (s : State) : State :=
  { s with dec := { active := true, bits := s.dec.bits, prev := r.val }, responses := s.responses ++ [r] }

/-- The response of a command that completes with no field to report (R13). -/
def zeroResponse : Response := { st := 0, cv := false, b := 0, code := 0, res := 0, val := 0 }

/-- A word with a reserved opcode or a reserved operand bit, read off its number (R73(a), (b)). -/
abbrev isIllegalWord (w : CmdWord) : Prop :=
  w.toNat / 65536 = 0 ∨ 10 ≤ w.toNat / 65536 ∨ (w.toNat / 65536 = 1 ∧ 32 ≤ w.toNat % 65536) ∨
    (w.toNat / 65536 = 8 ∧ 4 ≤ w.toNat % 65536) ∨ (w.toNat / 65536 = 9 ∧ w.toNat % 65536 ≠ 0)

/-- The fault number that R206's order gives a command word in a state, 0 for none, read off the word's number. -/
def faultByPriority (s : State) (w : CmdWord) : Nat :=
  if isIllegalWord w then 1
  else if w.toNat / 65536 = 1 ∧ (w.toNat % 65536 = 0 ∨ 16 < w.toNat % 65536) then 2
  else if (w.toNat / 65536 = 2 ∨ w.toNat / 65536 = 4 ∨ w.toNat / 65536 = 6) ∧ s.cfgBits = 0 then 3
  else if (w.toNat / 65536 = 5 ∧ s.enc.active = false) ∨ (w.toNat / 65536 = 7 ∧ s.dec.active = false) then 4
  else if w.toNat / 65536 = 7 ∧ 2 ^ s.dec.bits.toNat - 1 < w.toNat % 65536 then 5
  else 0

/-- The encoding of a command as the machine reads it: a step on the presented word `w` is the meaning of `i`, on the
state with the word taken from the port (R52). -/
def wordRuns (w : CmdWord) (i : Instr) : Prop :=
  ∀ (s : State) (rest : List HostInput), s.inputs = .command w :: rest → step s = exec i { s with inputs := rest }

/-- What R74 and R75 say of every response: `st` is 0..5; a fault's other fields are 0; `b` is 0 or a legal depth, and
with `b = 0` neither `code` nor `res` carries a value; `code` is 0 when `cv` is. -/
abbrev responseOk (r : Response) : Prop :=
  r.st.toNat ≤ 5 ∧ (r.st ≠ 0 → r = { zeroResponse with st := r.st }) ∧ r.b.toNat ≤ Config.BMAX ∧
    (r.b = 0 → r.cv = false ∧ r.res = 0) ∧ (r.cv = false → r.code = 0)

/-- Every response delivered so far is as R74 and R75 say. -/
def responsesOk (s : State) : Prop := ∀ r ∈ s.responses, responseOk r

/-- The states a host can bring the block to: from reset, by steps and the host's two actions (R51). -/
inductive Reachable : State → Prop where
  | reset : Reachable State.reset
  | step {s t : State} : Reachable s → Machine.step s = .next t → Reachable t
  | present {s : State} (w : CmdWord) : Reachable s → Reachable (Machine.present w s)
  | assertReset {s : State} : Reachable s → Reachable (Machine.assertReset s)

/-- Two units that a host cannot tell apart: open or closed alike, and equal when open (R24, R25, R30). -/
def sameUnit (u v : StreamRegs) : Prop := u.active = v.active ∧ (u.active = true → u = v)

/-- Two states that a host cannot tell apart: they differ at most in the latches of closed units and in how many free
values have been drawn. -/
def sameToHost (s t : State) : Prop :=
  s.cfgBits = t.cfgBits ∧ s.err = t.err ∧ sameUnit s.enc t.enc ∧ sameUnit s.dec t.dec ∧
    s.inputs = t.inputs ∧ s.responses = t.responses

/-- The units of the block that work on samples (00_scope.md glossary, R61). -/
inductive CodecUnit where
  | quantizer
  | encoder
  | decoder
  deriving DecidableEq, Repr

/-- The unit a sample or code command addresses; none for the control commands. -/
def unitOf : Instr → Option CodecUnit
  | .cfg _ => none
  | .qnt _ => some .quantizer
  | .qnt1 _ => some .quantizer
  | .encf _ => some .encoder
  | .encn _ => some .encoder
  | .decf _ => some .decoder
  | .decn _ => some .decoder
  | .endUnits _ _ => none
  | .stat => none

/-- Commands executed one after another. -/
def execAll : List Instr → State → Host.Outcome State Fault Refusal
  | [], s => .next s
  | i :: rest, s =>
    match exec i s with
    | .next t => execAll rest t
    | .fault r => .fault r
    | .refused r => .refused r

end Sys2Proof.Machine

/-! ### The block for every choice of the parameters (R5) -/

namespace Sys2Proof.General

/-- (I2), (I3) of R31 for a stream that is open. -/
def streamOk {p : Params} (u : Option (Stream p)) : Prop :=
  ∀ v, u = some v →
    1 ≤ v.bits.toNat ∧ v.bits.toNat ≤ p.BMAX ∧ -(scale p v.bits.toNat) ≤ v.prev.toInt ∧ v.prev.toInt ≤ scale p v.bits.toNat

/-- (I1), (I2), (I3) of R31. -/
def Inv {p : Params} (s : Block p) : Prop := s.cfgBits.toNat ≤ p.BMAX ∧ streamOk s.enc ∧ streamOk s.dec

/-- The port is wide enough for `num_b(v)`, and `v` is a whole number of `1 / S(b)`: read at depth `b` it gives `v` back (R12). -/
def portCarries (p : Params) (b : Nat) (v : ℚ) : Prop := portValue p b (toPort p b v) = v

/-- The `code` port is wide enough for the index `k`. -/
def codeCarries (p : Params) (k : Int) : Prop := (toCode p k).toInt = k

/-- A unit of the machine as the general block has it: a closed one is forgotten (R30). -/
def streamOf (u : Machine.StreamRegs) : Option (Stream Config.defaults) :=
  if u.active then some { bits := u.bits, prev := u.prev } else none

/-- The registers of the machine as the general block at the defaults has them. -/
def blockOf (s : Machine.State) : Block Config.defaults :=
  { cfgBits := s.cfgBits, err := s.err, enc := streamOf s.enc, dec := streamOf s.dec }

/-- A response of the machine as the general block at the defaults has it. -/
def answerOf (r : Machine.Response) : Answer Config.defaults :=
  { st := r.st, cv := r.cv, b := r.b, code := r.code, res := r.res, val := r.val }

end Sys2Proof.General
end

