-- ==== Sys2Proof/Certificates/Slice0/Obligations.lean ====
section
/-! DEFINITION. The statements for the provers. Each docstring names the rule of the spec it formalises; what rests on a
choice of the model names the log entry (notes/assumptions/<n>.md). -/

open Sys2Proof Sys2Proof.Machine

/-! ## Encoding -/

/-- 30_encoding.md R70, R71, R72, R76, all nine commands: the decoder reads back every operand the encoder wrote. -/
def Obligations.DecodeOfEncodeIsTheCommand : Prop :=
  ∀ i : Instr, i.wellFormed = true → decode (encode i) = .ok i

/-- R70 to R73: a legal word has one reading, a well-formed command whose encoding is that word again. -/
def Obligations.LegalWordReencodesToItself : Prop :=
  ∀ (w : CmdWord) (i : Instr), decode w = .ok i → i.wellFormed = true ∧ encode i = w

/-- R72: the nine bit patterns of the opcode map, field by field, and the seven reserved opcodes. -/
def Obligations.OpcodeMapNineCommandsSevenReserved : Prop :=
  (∀ v : BitVec 5, decode (0x1#4 ++ (0#11 ++ v)) = .ok (.cfg v.toNat)) ∧
  (∀ x : BitVec 16, decode (0x2#4 ++ x) = .ok (.qnt x)) ∧
  (∀ x : BitVec 16, decode (0x3#4 ++ x) = .ok (.qnt1 x)) ∧
  (∀ x : BitVec 16, decode (0x4#4 ++ x) = .ok (.encf x)) ∧
  (∀ x : BitVec 16, decode (0x5#4 ++ x) = .ok (.encn x)) ∧
  (∀ x : BitVec 16, decode (0x6#4 ++ x) = .ok (.decf x)) ∧
  (∀ k : BitVec 16, decode (0x7#4 ++ k) = .ok (.decn k.toNat)) ∧
  (∀ d e : Bool, decode (0x8#4 ++ (0#14 ++ (BitVec.ofBool d ++ BitVec.ofBool e))) = .ok (.endUnits e d)) ∧
  decode (0x9#4 ++ 0#16) = .ok .stat ∧
  (∀ (opc : BitVec 4) (op : BitVec 16), opc = 0 ∨ 0xA ≤ opc.toNat → decode (opc ++ op) = .error (.reservedOpcode opc))

/-- R70, R72 on words written out bit by bit: CFG 8, QNT 0.5, QNT1 -0.25, ENCF 0.5, ENCN 1, DECF 0.5, DECN 5, END BOTH,
STAT. -/
def Obligations.WrittenOutWordsDecode : Prop :=
  decode 0b00010000000000001000#20 = .ok (.cfg 8) ∧
  decode 0b00100010000000000000#20 = .ok (.qnt 0b0010000000000000#16) ∧
  decode 0b00111111000000000000#20 = .ok (.qnt1 0b1111000000000000#16) ∧
  decode 0b01000010000000000000#20 = .ok (.encf 0b0010000000000000#16) ∧
  decode 0b01010100000000000000#20 = .ok (.encn 0b0100000000000000#16) ∧
  decode 0b01100010000000000000#20 = .ok (.decf 0b0010000000000000#16) ∧
  decode 0b01110000000000000101#20 = .ok (.decn 5) ∧
  decode 0b10000000000000000011#20 = .ok (.endUnits true true) ∧
  decode 0b10010000000000000000#20 = .ok .stat

/-! ## The transaction -/

/-- 20_memory.md R52: a step on a presented word that decodes is that command's meaning, on the state with the word taken
from the port (the inputs list is the model's, log entry 2). -/
def Obligations.StepExecutesTheDecodedCommand : Prop :=
  ∀ (s : State) (w : CmdWord) (rest : List HostInput) (i : Instr),
    s.inputs = .command w :: rest → decode w = .ok i → step s = exec i { s with inputs := rest }

/-- The model's way to present a command (log entry 7): the next step runs it. -/
def Obligations.FetchWordRunsTheCommand : Prop :=
  ∀ (s : State) (i : Instr), i.wellFormed = true →
    decodeTableWord 20 (encode i).toNat = some i ∧ step (s.withFetchWord 20 (encode i).toNat) = exec i s

/-- R57: with nothing presented the block waits. That waiting is a step that changes nothing is the model's choice (log
entry 2). -/
def Obligations.WaitingBlockIsUnchanged : Prop :=
  ∀ s : State, s.inputs = [] → step s = .next s

/-- R52: the block is never stuck, and a presented word, legal or not, is taken and answered by exactly one response. -/
def Obligations.EveryCommandCompletesWithOneResponse : Prop :=
  (∀ s : State, ∃ t, step s = .next t) ∧
  ∀ (s : State) (w : CmdWord) (rest : List HostInput), s.inputs = .command w :: rest →
    ∃ t r, step s = .next t ∧ t.inputs = rest ∧ t.responses = s.responses ++ [r]

/-- R58(a): what a step does to the registers and answers does not depend on what the host presented later. -/
def Obligations.StepIgnoresLaterInputs : Prop :=
  ∀ (s t : State) (e : HostInput) (rest rest' : List HostInput),
    step { s with inputs := e :: rest } = .next t → step { s with inputs := e :: rest' } = .next { t with inputs := rest' }

/-- R53: commands that wait on the port are answered one by one, one response each, after the answers already given. -/
def Obligations.WaitingCommandsAreAnsweredInTurn : Prop :=
  ∀ (ws : List CmdWord) (s : State), s.inputs = ws.map .command →
    ∃ t rs, Host.Core.run Sys2Proof.core ws.length s = .next t ∧ t.inputs = [] ∧ t.responses = s.responses ++ rs ∧
      rs.length = ws.length

/-! ## Faults -/

/-- 60_exceptions.md R201: a word raises ERR_ILLEGAL exactly when its opcode is reserved or a reserved operand bit is set,
before any other check. -/
def Obligations.IllegalWordRaisesErrIllegal : Prop :=
  ∀ (s : State) (w : CmdWord) (rest : List HostInput), s.inputs = .command w :: rest →
    (isIllegalWord w → step s = .next (afterFault 1 { s with inputs := rest })) ∧
    (¬ isIllegalWord w → ∃ t r, step s = .next t ∧ t.responses = s.responses ++ [r] ∧ r.st ≠ 1)

/-- R207: a command that answers `st = c ≠ 0` leaves everything but the flag `ERR[c]` (and its response of zeros) as it
was; one that answers `st = 0` sets no flag. -/
def Obligations.FaultEntryWritesOnlyTheFlag : Prop :=
  ∀ (s t : State) (w : CmdWord) (rest : List HostInput), s.inputs = .command w :: rest → step s = .next t →
    ∃ r, t.responses = s.responses ++ [r] ∧
      (r.st ≠ 0 → r.st.toNat ≤ 5 ∧ t = afterFault r.st.toNat { s with inputs := rest }) ∧
      (r.st = 0 → t.err = s.err)

/-- R206: which fault a command reports, in every state, by the order of the rule and its table; only that fault's flag
is set. -/
def Obligations.FaultsFollowThePriorityOrder : Prop :=
  ∀ (s : State) (w : CmdWord) (rest : List HostInput), s.inputs = .command w :: rest →
    ∃ t r, step s = .next t ∧ t.responses = s.responses ++ [r] ∧ r.st.toNat = faultByPriority s w ∧
      t.err = if faultByPriority s w = 0 then s.err else s.err ||| BitVec.ofNat _ (2 ^ (faultByPriority s w - 1))

/-- R203: QNT, ENCF and DECF raise ERR_NOCFG while `CFG.BITS = 0`, in that case only, and no other command raises it. -/
def Obligations.UnconfiguredUseRaisesErrNocfg : Prop :=
  ∀ (i : Instr) (s : State), ∃ t r, exec i s = .next t ∧ t.responses = s.responses ++ [r] ∧
    (r.st = 3 ↔ s.cfgBits = 0 ∧ ∃ x, i = .qnt x ∨ i = .encf x ∨ i = .decf x) ∧
    (r.st = 3 → t = afterFault 3 s)

/-- R204: ENCN raises ERR_SEQ while `ENC.ACTIVE = 0` and DECN while `DEC.ACTIVE = 0`, in those cases only. -/
def Obligations.NextOnClosedUnitRaisesErrSeq : Prop :=
  ∀ (i : Instr) (s : State), ∃ t r, exec i s = .next t ∧ t.responses = s.responses ++ [r] ∧
    (r.st = 4 ↔ (s.enc.active = false ∧ ∃ x, i = .encn x) ∨ (s.dec.active = false ∧ ∃ k, i = .decn k)) ∧
    (r.st = 4 → t = afterFault 4 s)

/-- R208: over any list of waiting commands from a state with no flag set, "`STATUS.ERR` is 0 at the end" and "every `st`
was 0" say the same, that no fault occurred. -/
def Obligations.FlagsStayZeroExactlyWithoutFault : Prop :=
  ∀ (ws : List CmdWord) (s : State), s.inputs = ws.map .command → faultFree s →
    ∃ t rs, Host.Core.run Sys2Proof.core ws.length s = .next t ∧ t.responses = s.responses ++ rs ∧
      (faultFree t ↔ ∀ r ∈ rs, r.st = 0)

/-- 10_state.md R22: the flags never stop or alter a later command. With other flags in `STATUS.ERR`, every command but
STAT does and answers the same, and STAT's answer differs at most in the image's ERR field, bits 11..7. -/
def Obligations.ErrFlagsAlterNoResult : Prop :=
  (∀ (i : Instr) (s t : State) (e : BitVec 5), i ≠ .stat → exec i s = .next t →
    ∃ e', exec i { s with err := e } = .next { t with err := e' }) ∧
  (∀ (s t : State) (e : BitVec 5), exec .stat s = .next t →
    ∃ r r', t.responses = s.responses ++ [r] ∧
      exec .stat { s with err := e } = .next { t with err := e, responses := s.responses ++ [r'] } ∧
      r' = { r with val := r'.val } ∧ r.val &&& 0xFFFFF07F = r'.val &&& 0xFFFFF07F)

/-! ## Reset -/

/-- 70_reset_and_hazards.md R230, 10_state.md R30: the four values the spec gives for reset. -/
def Obligations.ResetStateIsTheResetTable : Prop :=
  State.reset.cfgBits = 0 ∧ State.reset.err = 0 ∧ State.reset.enc.active = false ∧ State.reset.dec.active = false

/-- R230: asserting reset discards the commands not yet answered, the step after it leaves the values of the reset table,
and no command clears a flag of `STATUS.ERR` or returns `CFG.BITS` to 0. That delivered responses stay recorded is the
model's choice (log entry 6). -/
def Obligations.OnlyResetClearsFlagsAndConfiguration : Prop :=
  (∀ s : State, ∃ t, step (assertReset s) = .next t ∧ t.cfgBits = 0 ∧ t.err = 0 ∧ t.enc.active = false ∧
    t.dec.active = false ∧ t.inputs = [] ∧ t.responses = s.responses) ∧
  (∀ (s : State) (rest : List HostInput), s.inputs = .reset :: rest → ∃ t, step s = .next t ∧ t.cfgBits = 0 ∧ t.err = 0 ∧
    t.enc.active = false ∧ t.dec.active = false ∧ t.inputs = rest ∧ t.responses = s.responses) ∧
  (∀ (s t : State) (w : CmdWord) (rest : List HostInput), s.inputs = .command w :: rest → step s = .next t →
    t.err &&& s.err = s.err ∧ (s.cfgBits ≠ 0 → t.cfgBits ≠ 0))

/-! ## Quantizer -/

/-- 40_quantizer.md R100: the word `0x2ssss` is QNT; it answers the level nearest to the sample, by the rational definition
of `Qidx` and `Q`, and writes nothing; not configured, it raises ERR_NOCFG. -/
def Obligations.QntAnswersTheNearestLevel : Prop :=
  ∀ (x : Sample) (s : State), wordRuns (0x2#4 ++ x) (.qnt x) ∧
    (s.cfgBits = 0 → exec (.qnt x) s = .next (afterFault 3 s)) ∧
    (s.cfgBits ≠ 0 → s.cfgBits.toNat ≤ Config.BMAX →
      ∃ r : Response, exec (.qnt x) s = .next { s with responses := s.responses ++ [r] } ∧
        r.st = 0 ∧ r.cv = true ∧ r.b = s.cfgBits ∧ r.code.toInt = Qidx s.cfgBits.toNat (sampleValue x) ∧ r.res = 0 ∧
        (r.val.toInt : ℚ) = numOf s.cfgBits.toNat (Q s.cfgBits.toNat (sampleValue x)))

/-- R101: samples outside [-1, 1] are accepted unclamped; index and value stay within the stated bounds, and `x = -2`
meets the lower one. -/
def Obligations.QntIndexAndValueBounds : Prop :=
  ∀ (x : Sample) (s : State), s.cfgBits ≠ 0 → s.cfgBits.toNat ≤ Config.BMAX →
    ∃ r : Response, exec (.qnt x) s = .next { s with responses := s.responses ++ [r] } ∧
      1 - 2 ^ (s.cfgBits.toNat - 1) ≤ r.code.toInt ∧ r.code.toInt ≤ 3 * 2 ^ (s.cfgBits.toNat - 1) - 1 ∧
      |r.val.toInt| ≤ (2 ^ (s.cfgBits.toNat + 1) - 1) * 2 ^ 14 ∧
      (x = 0x8000 → r.code.toInt = 1 - 2 ^ (s.cfgBits.toNat - 1))

/-- R103(a) to (e): range, idempotence, error bound, monotonicity, and where the quantizer is odd-symmetric. -/
def Obligations.QuantizerRangeIdempotenceErrorMonotone : Prop :=
  ∀ b : Nat, 1 ≤ b →
    (∀ x : ℚ, -1 ≤ x → x ≤ 1 → 0 ≤ Qidx b x ∧ Qidx b x ≤ levelMax b) ∧
    (∀ x : ℚ, Q b (Q b x) = Q b x) ∧
    (∀ x : ℚ, |Q b x - x| ≤ 1 / levelMax b) ∧
    (∀ x y : ℚ, x ≤ y → Q b x ≤ Q b y) ∧
    Q b 0 = 1 / levelMax b ∧
    (∀ x : ℚ, Q b (-x) = -Q b x ↔ ¬ isTie b x)

/-- R104: the word `0x3ssss` is QNT1, the hard threshold at zero, in every state, reading and writing no register. -/
def Obligations.Qnt1IsTheThresholdAtZero : Prop :=
  ∀ (x : Sample) (s : State), wordRuns (0x3#4 ++ x) (.qnt1 x) ∧
    (0 ≤ x.toInt → exec (.qnt1 x) s = .next
      { s with responses := s.responses ++ [{ st := 0, cv := true, b := 1, code := 1, res := 0, val := 16384 }] }) ∧
    (x.toInt < 0 → exec (.qnt1 x) s = .next
      { s with responses := s.responses ++ [{ st := 0, cv := true, b := 1, code := 0, res := 0, val := -16384 }] })

/-- R105: on every sample word QNT at `bits = 1` and QNT1, two distinct operations, answer the same. -/
def Obligations.Qnt1AgreesWithQntAtDepthOne : Prop :=
  ∀ (x : Sample) (s : State), s.cfgBits = 1 → exec (.qnt x) s = exec (.qnt1 x) s

/-- R56: the frame of the commands that write no register. QNT, QNT1 and STAT change nothing but the response (and, for
QNT, the flag of ERR_NOCFG). -/
def Obligations.QntQnt1StatFrame : Prop :=
  ∀ (i : Instr) (s t : State), ((∃ x, i = .qnt x ∨ i = .qnt1 x) ∨ i = .stat) → exec i s = .next t →
    t.cfgBits = s.cfgBits ∧ t.enc = s.enc ∧ t.dec = s.dec ∧ t.inputs = s.inputs ∧ t.draws = s.draws ∧
      t.err &&& 0b11011 = s.err &&& 0b11011 ∧ ((∃ x, i = .qnt x) ∨ t.err = s.err)

/-! ## Encoder -/

/-- 41_dpcm_encoder.md R120: the word `0x4ssss` is ENCF; it overwrites the encoder's three registers with the clipped sample
at depth `CFG.BITS` and answers it; not configured, it raises ERR_NOCFG. -/
def Obligations.EncfOpensTheStream : Prop :=
  ∀ (x : Sample) (s : State), wordRuns (0x4#4 ++ x) (.encf x) ∧
    (s.cfgBits = 0 → exec (.encf x) s = .next (afterFault 3 s)) ∧
    (s.cfgBits ≠ 0 → s.cfgBits.toNat ≤ Config.BMAX →
      ∃ p : PortWord, (p.toInt : ℚ) = numOf s.cfgBits.toNat (clip (sampleValue x) (-1) 1) ∧
        exec (.encf x) s = .next
          { s with
            enc := { active := true, bits := s.cfgBits, prev := p }
            responses := s.responses ++ [{ st := 0, cv := false, b := s.cfgBits, code := 0, res := 0, val := p }] })

/-- R121: the word `0x5ssss` is ENCN, D0's six steps over exact rationals, at depth `ENC.BITS` from `ENC.PREV`; on a closed
unit it raises ERR_SEQ. The premise is (I2) of R31, which `InvariantIsKeptByEveryStep` states. -/
def Obligations.EncnIsTheSixSteps : Prop :=
  ∀ (x : Sample) (s : State), streamOk s.enc →
    wordRuns (0x5#4 ++ x) (.encn x) ∧
    (s.enc.active = false → exec (.encn x) s = .next (afterFault 4 s)) ∧
    (s.enc.active = true →
      ∃ r : Response,
        exec (.encn x) s = .next (afterEncn r s) ∧
        r.st = 0 ∧ r.cv = true ∧ r.b = s.enc.bits ∧
        r.code.toInt =
          (encodeTransition s.enc.bits.toNat (portValue s.enc.bits.toNat s.enc.prev) (sampleValue x)).code ∧
        (r.res.toInt : ℚ) = numOf s.enc.bits.toNat
          (encodeTransition s.enc.bits.toNat (portValue s.enc.bits.toNat s.enc.prev) (sampleValue x)).dq ∧
        (r.val.toInt : ℚ) = numOf s.enc.bits.toNat
          (encodeTransition s.enc.bits.toNat (portValue s.enc.bits.toNat s.enc.prev) (sampleValue x)).recon)

/-- R125: the quantized residual is `2j/M` with `j = 2k - M` odd, `|j| ≤ M`, so never 0, and `code` and `res` carry the
same information. -/
def Obligations.EncnResidualGridNeverZero : Prop :=
  ∀ (x y : Sample) (s : State), streamOk s.enc → s.enc.active = true →
    ∃ r r' : Response,
      exec (.encn x) s = .next (afterEncn r s) ∧
      exec (.encn y) s = .next (afterEncn r' s) ∧
      r.res.toInt = (2 * r.code.toInt - levelMax s.enc.bits.toNat) * 2 ^ 15 ∧
      (2 * r.code.toInt - levelMax s.enc.bits.toNat) % 2 = 1 ∧
      0 ≤ r.code.toInt ∧ r.code.toInt ≤ levelMax s.enc.bits.toNat ∧ r.res ≠ 0 ∧
      (r.res = r'.res ↔ r.code = r'.code)

/-- R126(a): when neither clip acts, the reconstruction is within `2/M` of the sample. -/
def Obligations.EncoderTracksWithinOneSpacing : Prop :=
  ∀ (x : Sample) (s : State), streamOk s.enc → s.enc.active = true →
    ∃ r : Response,
      exec (.encn x) s = .next (afterEncn r s) ∧
      (|sampleValue x - portValue s.enc.bits.toNat s.enc.prev| ≤ 2 →
        |portValue s.enc.bits.toNat s.enc.prev + portValue s.enc.bits.toNat r.res| ≤ 1 →
        |portValue s.enc.bits.toNat r.val - sampleValue x| ≤ 2 / levelMax s.enc.bits.toNat)

/-- R126(b): a constant input at `prev = c` with `c + 2/M ≤ 1` gives `c + 2/M`, then `c` again: period 2, with the codes
`2^(b-1)` and `2^(b-1) - 1`. -/
def Obligations.EncoderIdlePatternHasPeriodTwo : Prop :=
  ∀ (x : Sample) (s : State), streamOk s.enc → s.enc.active = true →
    portValue s.enc.bits.toNat s.enc.prev = sampleValue x →
    sampleValue x + 2 / levelMax s.enc.bits.toNat ≤ 1 →
    ∃ (t u : State) (r r' : Response), exec (.encn x) s = .next t ∧ exec (.encn x) t = .next u ∧
      u.responses = s.responses ++ [r, r'] ∧
      r.code.toInt = 2 ^ (s.enc.bits.toNat - 1) ∧
      portValue s.enc.bits.toNat r.val = sampleValue x + 2 / levelMax s.enc.bits.toNat ∧
      r'.code.toInt = 2 ^ (s.enc.bits.toNat - 1) - 1 ∧ u.enc = s.enc

/-- R126(d): a difference beyond 2 drives the code and the output to the rail of its sign. -/
def Obligations.EncoderOverloadReachesTheRail : Prop :=
  ∀ (x : Sample) (s : State), streamOk s.enc → s.enc.active = true →
    ∃ r : Response,
      exec (.encn x) s = .next (afterEncn r s) ∧
      (2 < sampleValue x - portValue s.enc.bits.toNat s.enc.prev →
        r.code.toInt = levelMax s.enc.bits.toNat ∧ r.val.toInt = scale s.enc.bits.toNat) ∧
      (sampleValue x - portValue s.enc.bits.toNat s.enc.prev < -2 →
        r.code.toInt = 0 ∧ r.val.toInt = -scale s.enc.bits.toNat)

/-- 70_reset_and_hazards.md R234: an ENCN that leaves the output where it was needs a clip to absorb the residual: at
`prev = +1` with `diff ≥ 0`, or at `prev = -1` with `diff < 0`. -/
def Obligations.EncoderOutputStandsOnlyAtARail : Prop :=
  ∀ (x : Sample) (s : State), streamOk s.enc → s.enc.active = true →
    ∃ t, exec (.encn x) s = .next t ∧
      (t.enc = s.enc ↔
        (portValue s.enc.bits.toNat s.enc.prev = 1 ∧ 1 ≤ sampleValue x) ∨
        (portValue s.enc.bits.toNat s.enc.prev = -1 ∧ sampleValue x < -1))

/-- 10_state.md R26, R24: the frame of ENCF and ENCN. Nothing but the encoder's registers, the response and the one flag
of a fault (ERR_NOCFG for ENCF, ERR_SEQ for ENCN) changes; ENCN keeps `ENC.ACTIVE` and `ENC.BITS`. -/
def Obligations.EncoderCommandsFrame : Prop :=
  ∀ (x : Sample) (s t : State),
    (exec (.encf x) s = .next t → t.cfgBits = s.cfgBits ∧ t.dec = s.dec ∧ t.inputs = s.inputs ∧ t.draws = s.draws ∧
      t.err &&& 0b11011 = s.err &&& 0b11011) ∧
    (exec (.encn x) s = .next t → t.cfgBits = s.cfgBits ∧ t.dec = s.dec ∧ t.inputs = s.inputs ∧ t.draws = s.draws ∧
      t.err &&& 0b10111 = s.err &&& 0b10111 ∧ t.enc.active = s.enc.active ∧ t.enc.bits = s.enc.bits)

/-! ## Decoder -/

/-- 42_dpcm_decoder.md R140: the word `0x6ssss` is DECF, which is ENCF on the decoder's registers. -/
def Obligations.DecfOpensTheStream : Prop :=
  ∀ (x : Sample) (s : State), wordRuns (0x6#4 ++ x) (.decf x) ∧
    (s.cfgBits = 0 → exec (.decf x) s = .next (afterFault 3 s)) ∧
    (s.cfgBits ≠ 0 → s.cfgBits.toNat ≤ Config.BMAX →
      ∃ p : PortWord, (p.toInt : ℚ) = numOf s.cfgBits.toNat (clip (sampleValue x) (-1) 1) ∧
        exec (.decf x) s = .next
          { s with
            dec := { active := true, bits := s.cfgBits, prev := p }
            responses := s.responses ++ [{ st := 0, cv := false, b := s.cfgBits, code := 0, res := 0, val := p }] })

/-- R141: the word `0x7kkkk` is DECN, steps 4 to 6 over exact rationals, at depth `DEC.BITS` from `DEC.PREV`; on a closed unit
it raises ERR_SEQ, and for `k > M(DEC.BITS)` ERR_CODE. The premise is (I3) of R31. -/
def Obligations.DecnIsStepsFourToSix : Prop :=
  ∀ (k : Nat) (s : State), streamOk s.dec →
    (k < 2 ^ 16 → wordRuns (0x7#4 ++ BitVec.ofNat 16 k) (.decn k)) ∧
    (s.dec.active = false → exec (.decn k) s = .next (afterFault 4 s)) ∧
    (s.dec.active = true → 2 ^ s.dec.bits.toNat - 1 < k → exec (.decn k) s = .next (afterFault 5 s)) ∧
    (s.dec.active = true → k ≤ 2 ^ s.dec.bits.toNat - 1 →
      ∃ r : Response,
        exec (.decn k) s = .next (afterDecn r s) ∧
        r.st = 0 ∧ r.cv = false ∧ r.b = s.dec.bits ∧ r.code = 0 ∧
        (r.res.toInt : ℚ) = numOf s.dec.bits.toNat
          (decodeTransition s.dec.bits.toNat (portValue s.dec.bits.toNat s.dec.prev) k).dq ∧
        (r.val.toInt : ℚ) = numOf s.dec.bits.toNat
          (decodeTransition s.dec.bits.toNat (portValue s.dec.bits.toNat s.dec.prev) k).recon)

/-- 10_state.md R26: the frame of DECF and DECN. Nothing but the decoder's registers, the response and the one flag of a
fault (ERR_NOCFG for DECF, ERR_SEQ or ERR_CODE for DECN) changes; DECN keeps `DEC.ACTIVE` and `DEC.BITS`. -/
def Obligations.DecoderCommandsFrame : Prop :=
  ∀ (x : Sample) (k : Nat) (s t : State),
    (exec (.decf x) s = .next t → t.cfgBits = s.cfgBits ∧ t.enc = s.enc ∧ t.inputs = s.inputs ∧ t.draws = s.draws ∧
      t.err &&& 0b11011 = s.err &&& 0b11011) ∧
    (exec (.decn k) s = .next t → t.cfgBits = s.cfgBits ∧ t.enc = s.enc ∧ t.inputs = s.inputs ∧ t.draws = s.draws ∧
      t.err &&& 0b00111 = s.err &&& 0b00111 ∧ t.dec.active = s.dec.active ∧ t.dec.bits = s.dec.bits)

/-- R144: a wrong code shifts the reconstruction by `4·(k' - k)/M` where no clip acts. -/
def Obligations.WrongCodeShiftsTheReconstruction : Prop :=
  ∀ (k k' : Nat) (s : State), streamOk s.dec → s.dec.active = true →
    k ≤ 2 ^ s.dec.bits.toNat - 1 → k' ≤ 2 ^ s.dec.bits.toNat - 1 →
    ∃ r r' : Response,
      exec (.decn k) s = .next (afterDecn r s) ∧
      exec (.decn k') s = .next (afterDecn r' s) ∧
      (|portValue s.dec.bits.toNat s.dec.prev + portValue s.dec.bits.toNat r.res| ≤ 1 →
        |portValue s.dec.bits.toNat s.dec.prev + portValue s.dec.bits.toNat r'.res| ≤ 1 →
        portValue s.dec.bits.toNat r'.val - portValue s.dec.bits.toNat r.val =
          4 * ((k' : ℚ) - k) / levelMax s.dec.bits.toNat)

/-- 10_state.md R24, 43_control.md R160: ENCN and DECN use the latched depth: with another `CFG.BITS` they do and answer
the same. -/
def Obligations.NextCommandsIgnoreCfgBits : Prop :=
  ∀ (x : Sample) (k : Nat) (s t : State) (c : Depth),
    (exec (.encn x) s = .next t → exec (.encn x) { s with cfgBits := c } = .next { t with cfgBits := c }) ∧
    (exec (.decn k) s = .next t → exec (.decn k) { s with cfgBits := c } = .next { t with cfgBits := c })

/-- R120, R140: a FIRST command overwrites its unit whatever it held. -/
def Obligations.FirstCommandsForgetTheUnit : Prop :=
  ∀ (x : Sample) (s : State) (u : StreamRegs), s.cfgBits ≠ 0 →
    exec (.encf x) { s with enc := u } = exec (.encf x) s ∧ exec (.decf x) { s with dec := u } = exec (.decf x) s

/-! ## Control commands -/

/-- 43_control.md R160: CFG as a command and as a word with every operand: reserved bits raise ERR_ILLEGAL, 0 and values
above BMAX raise ERR_PARAM, 1..BMAX is stored; nothing else changes. -/
def Obligations.CfgStoresALegalDepthOnly : Prop :=
  (∀ (bits : Nat) (s : State),
    (1 ≤ bits ∧ bits ≤ 16 → exec (.cfg bits) s = .next
      { s with cfgBits := BitVec.ofNat 5 bits, responses := s.responses ++ [zeroResponse] }) ∧
    (bits < 1 ∨ 16 < bits → exec (.cfg bits) s = .next (afterFault 2 s))) ∧
  (∀ op : BitVec 16, op.toNat < 32 → wordRuns (0x1#4 ++ op) (.cfg op.toNat)) ∧
  (∀ (op : BitVec 16) (s : State) (rest : List HostInput), s.inputs = .command (0x1#4 ++ op) :: rest →
    32 ≤ op.toNat → step s = .next (afterFault 1 { s with inputs := rest }))

/-- R161: END closes the selected units and leaves the others, a unit that was closed already, `CFG.BITS` and the flags as
they were; a reserved operand bit raises ERR_ILLEGAL. Nothing is said of a closed unit's latches (free values, log entry
5). -/
def Obligations.EndClosesTheSelectedUnits : Prop :=
  (∀ (e d : Bool) (s : State), ∃ t, exec (.endUnits e d) s = .next t ∧
    t.enc.active = (s.enc.active && !e) ∧ t.dec.active = (s.dec.active && !d) ∧
    (e = false ∨ s.enc.active = false → t.enc = s.enc) ∧ (d = false ∨ s.dec.active = false → t.dec = s.dec) ∧
    t.cfgBits = s.cfgBits ∧ t.err = s.err ∧ t.inputs = s.inputs ∧ t.responses = s.responses ++ [zeroResponse]) ∧
  (∀ op : BitVec 16, op.toNat < 4 → wordRuns (0x8#4 ++ op) (.endUnits (op.getLsbD 0) (op.getLsbD 1))) ∧
  (∀ (op : BitVec 16) (s : State) (rest : List HostInput), s.inputs = .command (0x8#4 ++ op) :: rest →
    4 ≤ op.toNat → step s = .next (afterFault 1 { s with inputs := rest }))

/-- R162, R163: STAT writes nothing and answers the status image, field by field from bit 0 upward, zero above it; a word
of its opcode with another operand than 0 raises ERR_ILLEGAL. -/
def Obligations.StatAnswersTheStatusImage : Prop :=
  wordRuns (0x9#4 ++ 0#16) .stat ∧
  (∀ (op : BitVec 16) (s : State) (rest : List HostInput), s.inputs = .command (0x9#4 ++ op) :: rest →
    op ≠ 0 → step s = .next (afterFault 1 { s with inputs := rest })) ∧
  ∀ s : State, ∃ v : PortWord,
    exec .stat s = .next { s with responses := s.responses ++ [{ zeroResponse with val := v }] } ∧
    v.toNat = s.cfgBits.toNat + 2 ^ 5 * s.enc.active.toNat + 2 ^ 6 * s.dec.active.toNat + 2 ^ 7 * s.err.toNat +
      2 ^ 12 * (if s.enc.active then s.enc.bits.toNat else 0) + 2 ^ 17 * (if s.dec.active then s.dec.bits.toNat else 0)

/-! ## Invariants and whole-machine rules -/

/-- 10_state.md R31 at reset. -/
def Obligations.InvariantHoldsAtReset : Prop := Inv State.reset

/-- R31 (I1), (I2), (I3), and D0's reconstruction bound R124(a), R145: every step keeps the invariant, whatever the host
put on the inputs. -/
def Obligations.InvariantIsKeptByEveryStep : Prop :=
  ∀ s t : State, Inv s → step s = .next t → Inv t

/-- R31: in every state the host can bring the block to, the invariant holds, and no step but a reset clears a flag. -/
def Obligations.ReachableStatesMeetTheInvariant : Prop :=
  ∀ s : State, Reachable s → Inv s ∧
    ∀ t, step s = .next t → t.err &&& s.err = s.err ∨ ∃ rest, s.inputs = .reset :: rest

/-- R124(a), R145: every response of ENCF, ENCN, DECF and DECN carries a `val` within `[-S(b), S(b)]` for its own `b`. -/
def Obligations.CodecOutputsStayWithinOne : Prop :=
  ∀ (i : Instr) (s : State), Inv s → (unitOf i = some .encoder ∨ unitOf i = some .decoder) →
    ∃ t r, exec i s = .next t ∧ t.responses = s.responses ++ [r] ∧
      -(scale r.b.toNat) ≤ r.val.toInt ∧ r.val.toInt ≤ scale r.b.toNat

/-- 30_encoding.md R74, R75: every response is one of the shapes the tables allow; `st` 6..15 is never produced. -/
def Obligations.ResponsesKeepTheirShape : Prop :=
  ∀ s t : State, Inv s → responsesOk s → step s = .next t → responsesOk t

/-- 10_state.md R30, R24, R25; 93 U7: the latches of a closed unit cannot be observed. Two states that differ in them only
answer alike and stay so, whatever is presented. -/
def Obligations.ClosedLatchesAreUnobservable : Prop :=
  ∀ s t s' : State, sameToHost s t → step s = .next s' → ∃ t', step t = .next t' ∧ sameToHost s' t'

/-- 20_memory.md R61: commands for different units commute: same registers, same responses, only their order differs. -/
def Obligations.CommandsOfDifferentUnitsCommute : Prop :=
  ∀ (i j : Instr) (u v : CodecUnit) (s : State), unitOf i = some u → unitOf j = some v → u ≠ v →
    ∃ (t t' : State) (r r' : Response), execAll [i, j] s = .next t ∧ execAll [j, i] s = .next t' ∧
      t.responses = s.responses ++ [r, r'] ∧ t' = { t with responses := s.responses ++ [r', r] }

/-! ## Streams -/

/-- 42_dpcm_decoder.md R143: a decode stream fed the encoder's codes at the same depth, from a first sample that clips
alike, never faults and answers the encoder's `val`s and `res`es bit for bit, for every sample sequence. -/
def Obligations.DecoderReproducesTheEncoder : Prop :=
  ∀ (x x' : Sample) (xs : List Sample) (s d : State),
    s.cfgBits ≠ 0 → s.cfgBits.toNat ≤ Config.BMAX → d.cfgBits = s.cfgBits →
    clip (sampleValue x') (-1) 1 = clip (sampleValue x) (-1) 1 →
    ∃ (t u : State) (r : Response) (rs : List Response) (q : Response) (qs : List Response),
      execAll (.encf x :: xs.map .encn) s = .next t ∧ t.responses = s.responses ++ r :: rs ∧ rs.length = xs.length ∧
      execAll (.decf x' :: rs.map fun p => .decn p.code.toNat) d = .next u ∧ u.responses = d.responses ++ q :: qs ∧
      (∀ p ∈ q :: qs, p.st = 0) ∧
      (q :: qs).map (fun p => (p.b, p.res, p.val)) = (r :: rs).map (fun p => (p.b, p.res, p.val))

/-- 50_host_collaborators.md R182, 30_encoding.md R79: the pseudo-instruction ENCODE computes D0's `dpcm_encode` on the
values of its samples, for every non-empty signal and every depth, from any state. -/
def Obligations.EncodeComputesDpcmEncode : Prop :=
  ∀ (b : Nat) (x : Sample) (xs : List Sample) (s : State), 1 ≤ b → b ≤ Config.BMAX →
    ∃ (is : List Instr) (t : State) (rs : List Response),
      expandPseudo (.encode b (x :: xs)) = some is ∧ execAll is s = .next t ∧
      t.responses = s.responses ++ zeroResponse :: (rs ++ [zeroResponse]) ∧
      dpcmEncode b ((x :: xs).map sampleValue) = some (rs.map fun r => (portValue b r.val, portValue b r.res)) ∧
      (∀ r ∈ rs, r.st = 0 ∧ r.b.toNat = b) ∧ t.enc.active = false

/-- 50_host_collaborators.md R183, 30_encoding.md R79: the pseudo-instruction DECODE computes `dpcm_decode` on every list
of codes in range. -/
def Obligations.DecodeComputesDpcmDecode : Prop :=
  ∀ (b : Nat) (x : Sample) (ks : List Nat) (s : State), 1 ≤ b → b ≤ Config.BMAX → (∀ k ∈ ks, k ≤ 2 ^ b - 1) →
    ∃ (is : List Instr) (t : State) (rs : List Response),
      expandPseudo (.decode b x ks) = some is ∧ execAll is s = .next t ∧
      t.responses = s.responses ++ zeroResponse :: (rs ++ [zeroResponse]) ∧
      dpcmDecode b (sampleValue x) (ks.map fun k : Nat => (k : Int)) = some (rs.map fun r => portValue b r.val) ∧
      (∀ r ∈ rs, r.st = 0 ∧ r.b.toNat = b) ∧ t.dec.active = false

/-- 50_host_collaborators.md R180, R181, 30_encoding.md R79: the pseudo-instructions QUANTIZE and QUANTIZE1 compute
`quantize` and its 1-bit variant on the values of their samples. -/
def Obligations.QuantizeComputesQuantizeSignal : Prop :=
  ∀ (b : Nat) (xs : List Sample) (s : State), 1 ≤ b → b ≤ Config.BMAX →
    (∃ (is : List Instr) (t : State) (rs : List Response),
      expandPseudo (.quantize b xs) = some is ∧ execAll is s = .next t ∧
      t.responses = s.responses ++ zeroResponse :: rs ∧
      quantizeSignal b (xs.map sampleValue) = some (rs.map fun r => portValue b r.val)) ∧
    (∃ (is : List Instr) (t : State) (rs : List Response),
      expandPseudo (.quantize1 xs) = some is ∧ execAll is s = .next t ∧ t.responses = s.responses ++ rs ∧
      quantize1bit (xs.map sampleValue) = rs.map fun r => portValue 1 r.val)

/-! ## The parameters and the host functions -/

/-- 00_scope.md R5: the defaults meet every constraint of the table, and give the widths it shows. -/
def Obligations.DefaultParametersAreLegal : Prop :=
  Config.defaults.legal ∧ Config.defaults.F = 14 ∧ Config.defaults.SW = 16 ∧ Config.defaults.G = 2 ∧
    Config.defaults.BMAX = 16 ∧ Config.defaults.BW = 5 ∧ Config.defaults.PW = 32 ∧ Config.defaults.KW = 18 ∧
    Config.defaults.OPW = 4 ∧ Config.defaults.CW = 20

/-- R5, R12, 20_memory.md R52: the machine is the general block at the defaults. On every presented word its registers and
its response are those of the rules' pseudocode over exact rationals. The premise is the invariant of R31. -/
def Obligations.MachineIsTheGeneralBlockAtDefaults : Prop :=
  ∀ (s : State) (w : CmdWord) (rest : List HostInput), Inv s → s.inputs = .command w :: rest →
    ∃ t r, step s = .next t ∧ t.responses = s.responses ++ [r] ∧
      General.step (General.blockOf s) w = (General.blockOf t, General.answerOf r)

/-- 10_state.md R31 for every legal choice of the parameters: it holds after reset and every command keeps it. What CFG reads
where `BW` is above `SW` is the model's choice (log entry 19). -/
def Obligations.GeneralInvariantIsKeptByEveryCommand : Prop :=
  (∀ p : Params, General.Inv (General.Block.reset p)) ∧
  ∀ p : Params, p.legal → ∀ (s : General.Block p) (w : BitVec p.CW), General.Inv s → General.Inv (General.step s w).1

/-- R5's widths, R7, R12: for every legal choice of the parameters, every value, residual and index that the sample and
code commands QNT, ENCF, DECF, ENCN and DECN report is read back exactly from its port. It says nothing of STAT, whose image
on `val` loses bits at some legal parameters, where what STAT answers is the model's choice (log entry 19). -/
def Obligations.SampleAndCodeCommandsReportTheirValuesExactly : Prop :=
  ∀ p : Params, p.legal → ∀ b : Nat, 1 ≤ b → b ≤ p.BMAX →
    (∀ x : BitVec p.SW, General.codeCarries p (Qidx b (General.sampleValue p x)) ∧
      General.portCarries p b (Q b (General.sampleValue p x)) ∧
      General.portCarries p b (clip (General.sampleValue p x) (-1) 1)) ∧
    (∀ (x : BitVec p.SW) (prev : BitVec p.PW) (e : Transition),
      e = encodeTransition b (General.portValue p b prev) (General.sampleValue p x) →
        General.codeCarries p e.code ∧ General.portCarries p b e.dq ∧ General.portCarries p b e.recon) ∧
    (∀ (k : Nat) (prev : BitVec p.PW) (e : Transition), k ≤ 2 ^ b - 1 →
      e = decodeTransition b (General.portValue p b prev) k →
        General.portCarries p b e.dq ∧ General.portCarries p b e.recon)

/-- 30_encoding.md R71, R73, 42_dpcm_decoder.md R141, for every choice of the parameters: ERR_ILLEGAL is answered exactly on a
reserved opcode or a reserved operand bit, the general case's reserved bits of DECN among them, and sets its flag only. It
holds also of parameters that R5 excludes, of which the spec says nothing; the clause of CFG where `BW` is above `SW` is the
model's choice (log entry 19). -/
def Obligations.GeneralIllegalWordsAreTheReservedOnes : Prop :=
  ∀ (p : Params) (s : General.Block p) (opc : BitVec 4) (op : BitVec p.SW),
    ((General.step s (opc ++ op)).2.st = 1 ↔
      opc = 0 ∨ 10 ≤ opc.toNat ∨ (opc = 1 ∧ 2 ^ p.BW ≤ op.toNat) ∨ (opc = 7 ∧ 2 ^ p.BMAX ≤ op.toNat) ∨
        (opc = 8 ∧ 4 ≤ op.toNat) ∨ (opc = 9 ∧ op.toNat ≠ 0)) ∧
    ((General.step s (opc ++ op)).2.st = 1 → (General.step s (opc ++ op)).1 = { s with err := s.err ||| 0b00001 })

/-- 50_host_collaborators.md R185, R187(b): `evaluate` answers on equal lengths and non-empty input only; `mse` is the mean
square difference; `snr_db` is `+∞` exactly at zero distortion and else the one real number `d` with
`10^(d/10)·mse = mean(original²)`. Where both `mse > 0` and `mean(original²) = 0` there is none (U6). -/
def Obligations.EvaluatorMeasuresDistortionInDecibels : Prop :=
  ∀ original distorted : List ℚ,
    (original.length ≠ distorted.length ∨ original = [] → evaluate original distorted = none) ∧
    (original.length = distorted.length → original ≠ [] →
      ∃ e, evaluate original distorted = some e ∧
        e.mse * original.length = ((List.zipWith (· - ·) original distorted).map (· ^ 2)).sum ∧
        (e.mse = 0 ↔ original = distorted) ∧
        (original = distorted → ∃ v, e.snr = some v ∧ ∀ d, v.hasDecibels d ↔ d = ⊤) ∧
        (original ≠ distorted → meanSquare original = 0 → e.snr = none) ∧
        (original ≠ distorted → meanSquare original ≠ 0 →
          ∃ (v : Snr) (d : ℝ), e.snr = some v ∧ (∀ d', v.hasDecibels d' ↔ d' = (d : EReal)) ∧
            (10 : ℝ) ^ (d / 10) * (e.mse : ℝ) = (meanSquare original : ℝ)))
end

