-- ==== Sys2Proof/Laws/Arithmetic.lean ====
section
/-! SUPPORT. The block's arithmetic: each integer form of Machine/Operands.lean against its rational definition in
Machine/Rational.lean (spec/00_scope.md R8 to R12; 40_quantizer.md R102; 41_dpcm_encoder.md R122, R123), the bounds, and
that every value fits its port. -/

namespace Sys2Proof.Machine

/-! ### Levels and scale -/

theorem one_le_levelMax {b : Nat} (h : 1 ≤ b) : 1 ≤ levelMax b := by
  have : (2 : Int) ^ 1 ≤ 2 ^ b := pow_le_pow_right₀ (by norm_num) h
  unfold levelMax; omega

theorem levelMax_le {b : Nat} (h : b ≤ Config.BMAX) : levelMax b ≤ 65535 := by
  have : (2 : Int) ^ b ≤ 2 ^ 16 := pow_le_pow_right₀ (by norm_num) h
  unfold levelMax; omega

theorem levelMax_odd {b : Nat} (h : 1 ≤ b) : levelMax b % 2 = 1 := by
  obtain ⟨n, rfl⟩ : ∃ n, b = n + 1 := ⟨b - 1, by omega⟩
  unfold levelMax; rw [pow_succ]; omega

theorem levelMax_eq {b : Nat} (h : 1 ≤ b) : levelMax b = 2 * 2 ^ (b - 1) - 1 := by
  obtain ⟨n, rfl⟩ : ∃ n, b = n + 1 := ⟨b - 1, by omega⟩
  unfold levelMax; rw [pow_succ, Nat.add_sub_cancel]; ring

@[simp] theorem unity_eq : unity = 16384 := by decide

theorem scale_eq (b : Nat) : scale b = 16384 * levelMax b := by simp [scale]

theorem scale_pos {b : Nat} (h : 1 ≤ b) : 16384 ≤ scale b := by
  have := one_le_levelMax h; rw [scale_eq]; omega

theorem scale_le {b : Nat} (h : b ≤ Config.BMAX) : scale b ≤ 1073725440 := by
  have := levelMax_le h; rw [scale_eq]; omega

theorem levelMaxQ_pos {b : Nat} (h : 1 ≤ b) : (0 : ℚ) < levelMax b := by
  have := one_le_levelMax h; exact_mod_cast (by omega : 0 < levelMax b)

theorem scaleQ_eq (b : Nat) : (scale b : ℚ) = 16384 * levelMax b := by rw [scale_eq]; push_cast; ring

theorem scaleQ_pos {b : Nat} (h : 1 ≤ b) : (0 : ℚ) < scale b := by
  have := scale_pos h; exact_mod_cast (by omega : 0 < scale b)

theorem sampleInt_bounds (x : Sample) : -32768 ≤ sampleInt x ∧ sampleInt x ≤ 32767 := by
  have h1 := x.toInt_lt; have h2 := x.le_toInt
  unfold sampleInt; simp at h1 h2; omega

/-- The value of a sample word over `2^14` (R7). -/
theorem sampleValue_eq (x : Sample) : sampleValue x = (sampleInt x : ℚ) / 16384 := by
  unfold sampleValue; norm_num

/-! ### Clip -/

theorem clipInt_le {v lo hi : Int} (h : lo ≤ hi) : clipInt v lo hi ≤ hi := by unfold clipInt; split <;> [skip; split] <;> omega

theorem le_clipInt {v lo hi : Int} (h : lo ≤ hi) : lo ≤ clipInt v lo hi := by unfold clipInt; split <;> [skip; split] <;> omega

theorem clipInt_of_mem {v lo hi : Int} (h : lo ≤ v) (h' : v ≤ hi) : clipInt v lo hi = v := by
  unfold clipInt; split <;> [skip; split] <;> omega

theorem clipScaled_bounds {b : Nat} (h : 1 ≤ b) (z : Int) : -(scale b) ≤ clipScaled b z ∧ clipScaled b z ≤ scale b := by
  have := scale_pos h
  exact ⟨le_clipInt (by omega), clipInt_le (by omega)⟩

theorem clip_le {v lo hi : ℚ} (h : lo ≤ hi) : clip v lo hi ≤ hi := by
  unfold clip; split <;> [skip; split] <;> linarith

theorem le_clip {v lo hi : ℚ} (h : lo ≤ hi) : lo ≤ clip v lo hi := by
  unfold clip; split <;> [skip; split] <;> linarith

theorem clip_of_mem {v lo hi : ℚ} (h : lo ≤ v) (h' : v ≤ hi) : clip v lo hi = v := by
  unfold clip; split <;> [skip; split] <;> linarith

/-- Clipping an integer over a positive scale is clipping the rational it carries (R8, R12). -/
theorem clipInt_cast (v : Int) {c d : Int} (hd : 0 < d) :
    (clipInt v (-(c * d)) (c * d) : ℚ) = clip ((v : ℚ) / d) (-c) c * d := by
  have hd' : (0 : ℚ) < d := by exact_mod_cast hd
  have h1 : ((v : ℚ) / d < -c) ↔ v < -(c * d) := by
    rw [div_lt_iff₀ hd', ← Int.cast_neg, ← Int.cast_mul, Int.cast_lt, neg_mul]
  have h2 : ((v : ℚ) / d > c) ↔ v > c * d := by
    rw [gt_iff_lt, lt_div_iff₀ hd', ← Int.cast_mul, Int.cast_lt]
  unfold clipInt clip
  simp only [h1, h2]
  split
  · push_cast; ring
  · split
    · push_cast; ring
    · field_simp

/-- `clipS` is `clip(·, -1, 1)` at depth `b` (R122). -/
theorem clipScaled_cast {b : Nat} (h : 1 ≤ b) (z : Int) :
    (clipScaled b z : ℚ) = numOf b (clip ((z : ℚ) / scale b) (-1) 1) := by
  have := scale_pos h
  simpa [clipScaled, numOf] using clipInt_cast z (c := 1) (d := scale b) (by omega)

/-! ### Rounding and the quantizer index -/

/-- `floorDiv` is the floor of the quotient (R9). -/
theorem floorDiv_eq_floor (a : Int) {d : Int} (hd : 0 < d) : floorDiv a d = ⌊(a : ℚ) / d⌋ := by
  have hd' : (0 : ℚ) < d := by exact_mod_cast hd
  symm
  rw [Int.floor_eq_iff, le_div_iff₀ hd', div_lt_iff₀ hd']
  unfold floorDiv
  have h1 := Int.ediv_mul_le a hd.ne'
  have h2 := Int.lt_ediv_add_one_mul_self a hd
  exact ⟨by exact_mod_cast h1, by exact_mod_cast h2⟩

/-- R102: the integer form of QNT's index is `Qidx` of the sample's value. -/
theorem quantIndex_eq_Qidx (b : Nat) (x : Sample) : quantIndex b (sampleInt x) = Qidx b (sampleValue x) := by
  unfold quantIndex Qidx rnd
  rw [unity_eq, floorDiv_eq_floor _ (by norm_num), sampleValue_eq]
  congr 1
  push_cast
  ring

/-- R12: the numerator of a level. -/
theorem levelNum_cast {b : Nat} (h : 1 ≤ b) (k : Int) : (levelNum b k : ℚ) = numOf b (lvl b k) := by
  have := levelMaxQ_pos h
  unfold levelNum numOf lvl
  rw [unity_eq, scaleQ_eq]
  push_cast
  field_simp
  ring

/-- R123: the numerator of the quantized residual. -/
theorem residualNum_cast {b : Nat} (h : 1 ≤ b) (k : Int) : (residualNum b k : ℚ) = numOf b (lvl b k * 2) := by
  have := levelMaxQ_pos h
  unfold residualNum numOf lvl
  rw [unity_eq, scaleQ_eq]
  push_cast
  field_simp
  ring

/-- R122: the first sample's numerator. -/
theorem firstNum_cast {b : Nat} (h : 1 ≤ b) (x : Sample) :
    (firstNum b (sampleInt x) : ℚ) = numOf b (clip (sampleValue x) (-1) 1) := by
  have := levelMaxQ_pos h
  unfold firstNum
  rw [clipScaled_cast h, sampleValue_eq, scaleQ_eq]
  congr 2
  push_cast
  field_simp

/-- R123: steps 1 and 2 of ENCN over `2S` are `clip(diff / 2, -1, 1)`. -/
theorem diffNum_cast {b : Nat} (h : 1 ≤ b) (x : Sample) (P : Int) :
    (diffNum b (sampleInt x) P : ℚ) = clip ((sampleValue x - P / scale b) / 2) (-1) 1 * (2 * scale b) := by
  have hs := scale_pos h
  have hM := levelMaxQ_pos h
  have key := clipInt_cast (sampleInt x * levelMax b - P) (c := 1) (d := 2 * scale b) (by omega)
  simp only [one_mul, Int.cast_one] at key
  unfold diffNum
  rw [key, sampleValue_eq]
  push_cast
  congr 2
  rw [scaleQ_eq]
  field_simp

/-- R123: the integer form of ENCN's index is `Qidx` of `dn`. -/
theorem residualIndex_eq_Qidx {b : Nat} (h : 1 ≤ b) (x : Sample) (P : Int) :
    residualIndex b (sampleInt x) P = Qidx b (clip ((sampleValue x - P / scale b) / 2) (-1) 1) := by
  have hs := scale_pos h
  have hS := scaleQ_pos h
  unfold residualIndex Qidx rnd
  rw [floorDiv_eq_floor _ (by omega)]
  congr 1
  push_cast
  rw [diffNum_cast h]
  field_simp
  ring

/-- R11(a): an in-range value has an in-range index. -/
theorem Qidx_mem {b : Nat} (h : 1 ≤ b) {v : ℚ} (h1 : -1 ≤ v) (h2 : v ≤ 1) : 0 ≤ Qidx b v ∧ Qidx b v ≤ levelMax b := by
  have hM := levelMaxQ_pos h
  unfold Qidx rnd
  constructor
  · rw [Int.le_floor]; push_cast; nlinarith
  · rw [← Int.lt_add_one_iff, Int.floor_lt]; push_cast; nlinarith

theorem residualIndex_mem {b : Nat} (h : 1 ≤ b) (x : Sample) (P : Int) :
    0 ≤ residualIndex b (sampleInt x) P ∧ residualIndex b (sampleInt x) P ≤ levelMax b := by
  rw [residualIndex_eq_Qidx h]
  exact Qidx_mem h (le_clip (by norm_num)) (clip_le (by norm_num))

/-! ### Every value fits its port -/

theorem toPort_toInt {v : Int} (h : -2147483648 ≤ v) (h' : v < 2147483648) : (toPort v).toInt = v := by
  unfold toPort
  rw [BitVec.toInt_ofInt]
  exact Int.bmod_eq_of_le (by norm_num; omega) (by norm_num; omega)

theorem toCode_toInt {k : Int} (h : -131072 ≤ k) (h' : k < 131072) : (toCode k).toInt = k := by
  unfold toCode
  rw [BitVec.toInt_ofInt]
  exact Int.bmod_eq_of_le (by norm_num; omega) (by norm_num; omega)

theorem clipScaled_toPort {b : Nat} (h : 1 ≤ b) (h' : b ≤ Config.BMAX) (z : Int) :
    (toPort (clipScaled b z)).toInt = clipScaled b z := by
  have := clipScaled_bounds h z; have := scale_le h'
  exact toPort_toInt (by omega) (by omega)

theorem residualNum_toPort {b : Nat} (h' : b ≤ Config.BMAX) {k : Int} (hk : 0 ≤ k)
    (hk' : k ≤ levelMax b) : (toPort (residualNum b k)).toInt = residualNum b k := by
  have := levelMax_le h'
  unfold residualNum
  rw [unity_eq]
  exact toPort_toInt (by omega) (by omega)

theorem residualIndex_toCode {b : Nat} (h : 1 ≤ b) (h' : b ≤ Config.BMAX) (x : Sample) (P : Int) :
    (toCode (residualIndex b (sampleInt x) P)).toInt = residualIndex b (sampleInt x) P := by
  have := residualIndex_mem h x P; have := levelMax_le h'
  exact toCode_toInt (by omega) (by omega)

/-- R101's bounds on QNT's index. -/
theorem quantIndex_bounds {b : Nat} (h : 1 ≤ b) (x : Sample) :
    1 - 2 ^ (b - 1) ≤ quantIndex b (sampleInt x) ∧ quantIndex b (sampleInt x) ≤ 3 * 2 ^ (b - 1) - 1 := by
  have hx := sampleInt_bounds x
  have hM := levelMax_eq h
  have hM1 := one_le_levelMax h
  unfold quantIndex floorDiv
  rw [unity_eq]
  constructor
  · rw [Int.le_ediv_iff_mul_le (by norm_num)]; nlinarith
  · rw [← Int.lt_add_one_iff, Int.ediv_lt_iff_lt_mul (by norm_num)]; nlinarith

end Sys2Proof.Machine
end

