-- ==== Sys2Proof/Laws/Decode.lean ====
section
/-! SUPPORT. The decoder in terms of a word's number, and the encoder's fields (spec/30_encoding.md R70 to R73). -/

namespace Sys2Proof

/-- `opc = cw[19:16]` as a number (R70). -/
theorem opcodeField_toNat (w : CmdWord) : (opcodeField w).toNat = w.toNat / 65536 := by
  have := w.isLt
  simp only [opcodeField, BitVec.extractLsb'_toNat, Nat.shiftRight_eq_div_pow]
  norm_num at *
  omega

/-- `op = cw[15:0]` as a number (R70). -/
theorem operandField_toNat (w : CmdWord) : (operandField w).toNat = w.toNat % 65536 := by
  simp [operandField]

/-- The number of a concatenation `{a, b}` (00_scope.md R6). -/
theorem concat_toNat {n m : Nat} (a : BitVec n) (b : BitVec m) : (a ++ b).toNat = a.toNat * 2 ^ m + b.toNat := by
  rw [BitVec.toNat_append, ← Nat.shiftLeft_add_eq_or_of_lt b.isLt, Nat.shiftLeft_eq]

/-- The number of `{opc, op}` (R70). -/
theorem append_toNat (opc : Opcode) (op : Operand) : (opc ++ op : CmdWord).toNat = opc.toNat * 65536 + op.toNat :=
  concat_toNat opc op

/-- The opcode of `{opc, op}`. -/
@[simp] theorem opcodeField_append (opc : Opcode) (op : Operand) : opcodeField (opc ++ op) = opc := by
  have h := op.isLt
  apply BitVec.eq_of_toNat_eq
  rw [opcodeField_toNat, append_toNat]
  norm_num at *
  omega

/-- The operand of `{opc, op}`. -/
@[simp] theorem operandField_append (opc : Opcode) (op : Operand) : operandField (opc ++ op) = op := by
  have h := op.isLt
  apply BitVec.eq_of_toNat_eq
  rw [operandField_toNat, append_toNat]
  norm_num at *
  omega

/-- A word is its opcode and its operand. -/
theorem fields_append (w : CmdWord) : (opcodeField w ++ operandField w : CmdWord) = w := by
  apply BitVec.eq_of_toNat_eq
  rw [append_toNat, opcodeField_toNat, operandField_toNat]
  omega

/-- The opcode an encoded command carries (R72). -/
@[simp] theorem opcodeField_encode (i : Instr) : opcodeField (encode i) = opcodeNumber i := by simp [encode]

/-- The operand an encoded command carries (R71). -/
@[simp] theorem operandField_encode (i : Instr) : operandField (encode i) = operandBits i := by simp [encode]

/-- Reserved bits from `n` upward are all 0 exactly when the operand is below `2^n` (R71). -/
theorem reservedZero_iff (n : Nat) (op : Operand) : reservedZero n op = true ↔ op.toNat < 2 ^ n := by
  simp [reservedZero, Nat.div_eq_zero_iff]

/-- The general case's reserved bits of format K are none at the defaults (R71). -/
@[simp] theorem reservedZero_BMAX (op : Operand) : reservedZero Config.BMAX op = true := by
  rw [reservedZero_iff]; exact op.isLt

/-- Format K fills the operand at the defaults (R71). -/
@[simp] theorem lowField_BMAX (op : Operand) : lowField Config.BMAX op = op.toNat := Nat.mod_eq_of_lt op.isLt

/-- The reserved-bit check of `{opc, op}` (R73(b)). -/
theorem ifReservedZero_append (n : Nat) (opc : Opcode) (op : Operand) (i : Instr) :
    ifReservedZero n (opc ++ op) i = if op.toNat < 2 ^ n then .ok i else .error (.reservedOperandBit opc) := by
  simp only [ifReservedZero, operandField_append, opcodeField_append, reservedZero_iff]

/-- What the decoder answers, by opcode and operand. -/
theorem decode_append (opc : Opcode) (op : Operand) : decode (opc ++ op) =
    match opc.toNat with
    | 0x1 => if op.toNat < 32 then .ok (.cfg op.toNat) else .error (.reservedOperandBit opc)
    | 0x2 => .ok (.qnt op)
    | 0x3 => .ok (.qnt1 op)
    | 0x4 => .ok (.encf op)
    | 0x5 => .ok (.encn op)
    | 0x6 => .ok (.decf op)
    | 0x7 => .ok (.decn op.toNat)
    | 0x8 =>
      if op.toNat < 4 then .ok (.endUnits (op.getLsbD 0) (op.getLsbD 1)) else .error (.reservedOperandBit opc)
    | 0x9 => if op.toNat < 1 then .ok .stat else .error (.reservedOperandBit opc)
    | _ => .error (.reservedOpcode opc) := by
  have hcfg : ifReservedZero Config.BW (opc ++ op) (.cfg (lowField Config.BW op)) =
      if op.toNat < 32 then .ok (.cfg op.toNat) else .error (.reservedOperandBit opc) := by
    rw [ifReservedZero_append, show (2 : Nat) ^ Config.BW = 32 by norm_num]
    split
    · next h => rw [lowField, Nat.mod_eq_of_lt (by norm_num; omega)]
    · rfl
  have hdecn : ifReservedZero Config.BMAX (opc ++ op) (.decn (lowField Config.BMAX op)) = .ok (.decn op.toNat) := by
    rw [ifReservedZero_append, if_pos op.isLt, lowField_BMAX]
  unfold decode
  rw [opcodeField_append, operandField_append, hcfg, hdecn, ifReservedZero_append, ifReservedZero_append]
  rfl

/-! ### One equation per opcode -/

theorem decode_cfg_word (op : Operand) :
    decode (0x1#4 ++ op) = if op.toNat < 32 then .ok (.cfg op.toNat) else .error (.reservedOperandBit 0x1) :=
  decode_append 0x1#4 op

theorem decode_qnt_word (op : Operand) : decode (0x2#4 ++ op) = .ok (.qnt op) := decode_append 0x2#4 op

theorem decode_qnt1_word (op : Operand) : decode (0x3#4 ++ op) = .ok (.qnt1 op) := decode_append 0x3#4 op

theorem decode_encf_word (op : Operand) : decode (0x4#4 ++ op) = .ok (.encf op) := decode_append 0x4#4 op

theorem decode_encn_word (op : Operand) : decode (0x5#4 ++ op) = .ok (.encn op) := decode_append 0x5#4 op

theorem decode_decf_word (op : Operand) : decode (0x6#4 ++ op) = .ok (.decf op) := decode_append 0x6#4 op

theorem decode_decn_word (op : Operand) : decode (0x7#4 ++ op) = .ok (.decn op.toNat) := decode_append 0x7#4 op

theorem decode_end_word (op : Operand) :
    decode (0x8#4 ++ op) =
      if op.toNat < 4 then .ok (.endUnits (op.getLsbD 0) (op.getLsbD 1)) else .error (.reservedOperandBit 0x8) :=
  decode_append 0x8#4 op

theorem decode_stat_word (op : Operand) :
    decode (0x9#4 ++ op) = if op.toNat < 1 then .ok .stat else .error (.reservedOperandBit 0x9) :=
  decode_append 0x9#4 op

theorem decode_reserved_word {opc : Opcode} (h : opc = 0 ∨ 10 ≤ opc.toNat) (op : Operand) :
    decode (opc ++ op) = .error (.reservedOpcode opc) := by
  rw [decode_append]
  rcases h with rfl | h
  · rfl
  · split <;> first | rfl | omega

/-- The sixteen opcodes: nine commands and the reserved ones (R72). -/
theorem opcode_cases (opc : Opcode) :
    opc = 0x1#4 ∨ opc = 0x2#4 ∨ opc = 0x3#4 ∨ opc = 0x4#4 ∨ opc = 0x5#4 ∨ opc = 0x6#4 ∨ opc = 0x7#4 ∨ opc = 0x8#4 ∨
      opc = 0x9#4 ∨ (opc = 0 ∨ 10 ≤ opc.toNat) := by
  revert opc; decide

/-- A property of command words is one of opcodes and operands. -/
theorem cmdWord_cases {p : CmdWord → Prop} (h : ∀ (opc : Opcode) (op : Operand), p (opc ++ op)) (w : CmdWord) : p w :=
  fields_append w ▸ h _ _

/-- A word is illegal to the decoder exactly when its number says so (R73). -/
theorem decode_error_iff (w : CmdWord) : (∃ e, decode w = .error e) ↔ Machine.isIllegalWord w := by
  revert w
  refine cmdWord_cases fun opc op => ?_
  have hop := op.isLt
  have e1 : (opc ++ op : CmdWord).toNat / 65536 = opc.toNat := by rw [append_toNat]; omega
  have e2 : (opc ++ op : CmdWord).toNat % 65536 = op.toNat := by rw [append_toNat]; omega
  unfold Machine.isIllegalWord
  rw [e1, e2]
  rcases opcode_cases opc with rfl | rfl | rfl | rfl | rfl | rfl | rfl | rfl | rfl | h
  · rw [decode_cfg_word]; split <;> simp <;> omega
  · rw [decode_qnt_word]; simp
  · rw [decode_qnt1_word]; simp
  · rw [decode_encf_word]; simp
  · rw [decode_encn_word]; simp
  · rw [decode_decf_word]; simp
  · rw [decode_decn_word]; simp
  · rw [decode_end_word]; split <;> simp <;> omega
  · rw [decode_stat_word]; split <;> simp <;> omega
  · rw [decode_reserved_word h]; simp
    rcases h with rfl | h <;> [simp; omega]

end Sys2Proof
end

