-- ==== Sys2Proof/Laws/State.lean ====
section
/-! SUPPORT. One lemma per field per shared update, so that no proof unfolds a record update. -/

namespace Sys2Proof.Machine

variable (s : State) (r : Response) (c : ErrCode) (w : CmdWord) (b : Bool)

@[simp] theorem respond_cfgBits : (respond r s).cfgBits = s.cfgBits := rfl
@[simp] theorem respond_err : (respond r s).err = s.err := rfl
@[simp] theorem respond_enc : (respond r s).enc = s.enc := rfl
@[simp] theorem respond_dec : (respond r s).dec = s.dec := rfl
@[simp] theorem respond_inputs : (respond r s).inputs = s.inputs := rfl
@[simp] theorem respond_draws : (respond r s).draws = s.draws := rfl
@[simp] theorem respond_responses : (respond r s).responses = s.responses ++ [r] := rfl

@[simp] theorem setErr_cfgBits : (setErr c s).cfgBits = s.cfgBits := rfl
@[simp] theorem setErr_err : (setErr c s).err = s.err ||| errMask c := rfl
@[simp] theorem setErr_enc : (setErr c s).enc = s.enc := rfl
@[simp] theorem setErr_dec : (setErr c s).dec = s.dec := rfl
@[simp] theorem setErr_inputs : (setErr c s).inputs = s.inputs := rfl
@[simp] theorem setErr_draws : (setErr c s).draws = s.draws := rfl
@[simp] theorem setErr_responses : (setErr c s).responses = s.responses := rfl

@[simp] theorem raiseFault_cfgBits : (raiseFault c s).cfgBits = s.cfgBits := rfl
@[simp] theorem raiseFault_err : (raiseFault c s).err = s.err ||| errMask c := rfl
@[simp] theorem raiseFault_enc : (raiseFault c s).enc = s.enc := rfl
@[simp] theorem raiseFault_dec : (raiseFault c s).dec = s.dec := rfl
@[simp] theorem raiseFault_inputs : (raiseFault c s).inputs = s.inputs := rfl
@[simp] theorem raiseFault_draws : (raiseFault c s).draws = s.draws := rfl
@[simp] theorem raiseFault_responses : (raiseFault c s).responses = s.responses ++ [faultResponse c] := rfl

@[simp] theorem resetInput_cfgBits : (resetInput s).cfgBits = 0 := rfl
@[simp] theorem resetInput_err : (resetInput s).err = 0 := rfl
@[simp] theorem resetInput_enc : (resetInput s).enc = StreamRegs.reset := rfl
@[simp] theorem resetInput_dec : (resetInput s).dec = StreamRegs.reset := rfl
@[simp] theorem resetInput_inputs : (resetInput s).inputs = s.inputs := rfl
@[simp] theorem resetInput_draws : (resetInput s).draws = s.draws := rfl
@[simp] theorem resetInput_responses : (resetInput s).responses = s.responses := rfl

@[simp] theorem present_cfgBits : (present w s).cfgBits = s.cfgBits := rfl
@[simp] theorem present_err : (present w s).err = s.err := rfl
@[simp] theorem present_enc : (present w s).enc = s.enc := rfl
@[simp] theorem present_dec : (present w s).dec = s.dec := rfl
@[simp] theorem present_inputs : (present w s).inputs = s.inputs ++ [.command w] := rfl
@[simp] theorem present_draws : (present w s).draws = s.draws := rfl
@[simp] theorem present_responses : (present w s).responses = s.responses := rfl

@[simp] theorem assertReset_cfgBits : (assertReset s).cfgBits = s.cfgBits := rfl
@[simp] theorem assertReset_err : (assertReset s).err = s.err := rfl
@[simp] theorem assertReset_enc : (assertReset s).enc = s.enc := rfl
@[simp] theorem assertReset_dec : (assertReset s).dec = s.dec := rfl
@[simp] theorem assertReset_inputs : (assertReset s).inputs = [.reset] := rfl
@[simp] theorem assertReset_draws : (assertReset s).draws = s.draws := rfl
@[simp] theorem assertReset_responses : (assertReset s).responses = s.responses := rfl

@[simp] theorem closeEncoder_cfgBits : (closeEncoder b s).cfgBits = s.cfgBits := by unfold closeEncoder; split <;> rfl
@[simp] theorem closeEncoder_err : (closeEncoder b s).err = s.err := by unfold closeEncoder; split <;> rfl
@[simp] theorem closeEncoder_dec : (closeEncoder b s).dec = s.dec := by unfold closeEncoder; split <;> rfl
@[simp] theorem closeEncoder_inputs : (closeEncoder b s).inputs = s.inputs := by unfold closeEncoder; split <;> rfl
@[simp] theorem closeEncoder_responses : (closeEncoder b s).responses = s.responses := by
  unfold closeEncoder; split <;> rfl
@[simp] theorem closeEncoder_active : (closeEncoder b s).enc.active = (s.enc.active && !b) := by
  unfold closeEncoder; split <;> cases b <;> simp_all [closedStream]

@[simp] theorem closeDecoder_cfgBits : (closeDecoder b s).cfgBits = s.cfgBits := by unfold closeDecoder; split <;> rfl
@[simp] theorem closeDecoder_err : (closeDecoder b s).err = s.err := by unfold closeDecoder; split <;> rfl
@[simp] theorem closeDecoder_enc : (closeDecoder b s).enc = s.enc := by unfold closeDecoder; split <;> rfl
@[simp] theorem closeDecoder_inputs : (closeDecoder b s).inputs = s.inputs := by unfold closeDecoder; split <;> rfl
@[simp] theorem closeDecoder_responses : (closeDecoder b s).responses = s.responses := by
  unfold closeDecoder; split <;> rfl
@[simp] theorem closeDecoder_active : (closeDecoder b s).dec.active = (s.dec.active && !b) := by
  unfold closeDecoder; split <;> cases b <;> simp_all [closedStream]

/-- END leaves a unit alone that it does not select or that is closed already (R161). -/
theorem closeEncoder_enc_of_kept (h : b = false ∨ s.enc.active = false) : (closeEncoder b s).enc = s.enc := by
  unfold closeEncoder; rcases h with h | h <;> simp [h]

/-- END leaves a unit alone that it does not select or that is closed already (R161). -/
theorem closeDecoder_dec_of_kept (h : b = false ∨ s.dec.active = false) : (closeDecoder b s).dec = s.dec := by
  unfold closeDecoder; rcases h with h | h <;> simp [h]

end Sys2Proof.Machine
end

