-- ==== Sys2Proof/Laws/Step.lean ====
section
/-! SUPPORT. What each meaning and one step can do, said once: each meaning raises one of its faults or answers OK, and
a step is waiting, a reset, a decoded command or an illegal word. -/

namespace Sys2Proof.Machine

/-- The number of a fault (R75). -/
def errNumber : ErrCode → Nat
  | .illegal => 1
  | .param => 2
  | .nocfg => 3
  | .seq => 4
  | .code => 5

/-- Fault entry is R207's, for every code. -/
theorem raiseFault_eq (c : ErrCode) (s : State) : raiseFault c s = afterFault (errNumber c) s := by cases c <;> rfl

theorem faultResponse_st (c : ErrCode) : (faultResponse c).st = BitVec.ofNat _ (errNumber c) := by cases c <;> rfl

theorem faultResponse_st_ne (c : ErrCode) : (faultResponse c).st ≠ 0 := by cases c <;> decide

/-! ### One equation per meaning and case -/

theorem exec_qnt_unconfigured (x : Sample) {s : State} (h : s.cfgBits = 0) :
    exec (.qnt x) s = .next (raiseFault .nocfg s) := by simp only [exec, execQnt, if_pos h]

theorem exec_qnt_configured (x : Sample) {s : State} (h : s.cfgBits ≠ 0) :
    exec (.qnt x) s = .next (respond (quantResponse s.cfgBits x) s) := by simp only [exec, execQnt, if_neg h]

theorem exec_qnt1 (x : Sample) (s : State) : exec (.qnt1 x) s = .next (respond (thresholdResponse x) s) := rfl

theorem exec_encf_unconfigured (x : Sample) {s : State} (h : s.cfgBits = 0) :
    exec (.encf x) s = .next (raiseFault .nocfg s) := by simp only [exec, execEncf, if_pos h]

theorem exec_encf_configured (x : Sample) {s : State} (h : s.cfgBits ≠ 0) :
    exec (.encf x) s = .next (respond (firstResponse s.cfgBits x) { s with enc := openStream s.cfgBits x }) := by
  simp only [exec, execEncf, if_neg h]

theorem exec_encn_closed (x : Sample) {s : State} (h : s.enc.active = false) :
    exec (.encn x) s = .next (raiseFault .seq s) := by simp [exec, execEncn, h]

theorem exec_encn_open (x : Sample) {s : State} (h : s.enc.active = true) :
    exec (.encn x) s = .next (afterEncn (encodeResponse s.enc x) s) := by
  simp [exec, execEncn, h, respond, afterEncn, advanceStream, encodeResponse, nextResponse]

theorem exec_decf_unconfigured (x : Sample) {s : State} (h : s.cfgBits = 0) :
    exec (.decf x) s = .next (raiseFault .nocfg s) := by simp only [exec, execDecf, if_pos h]

theorem exec_decf_configured (x : Sample) {s : State} (h : s.cfgBits ≠ 0) :
    exec (.decf x) s = .next (respond (firstResponse s.cfgBits x) { s with dec := openStream s.cfgBits x }) := by
  simp only [exec, execDecf, if_neg h]

theorem exec_decn_closed (k : Nat) {s : State} (h : s.dec.active = false) :
    exec (.decn k) s = .next (raiseFault .seq s) := by simp [exec, execDecn, h]

theorem exec_decn_outOfRange (k : Nat) {s : State} (h : s.dec.active = true) (hk : levelMax s.dec.bits.toNat < k) :
    exec (.decn k) s = .next (raiseFault .code s) := by simp [exec, execDecn, h, hk]

theorem exec_decn_open (k : Nat) {s : State} (h : s.dec.active = true) (hk : (k : Int) ≤ levelMax s.dec.bits.toNat) :
    exec (.decn k) s = .next (afterDecn (nextResponse s.dec k) s) := by
  have : ¬ (k : Int) > levelMax s.dec.bits.toNat := by omega
  simp [exec, execDecn, h, this, respond, afterDecn, advanceStream, nextResponse]

theorem exec_cfg_refused {bits : Nat} (s : State) (h : bits < 1 ∨ bits > Config.BMAX) :
    exec (.cfg bits) s = .next (raiseFault .param s) := by simp only [exec, execCfg, if_pos h]

theorem exec_cfg_legal {bits : Nat} (s : State) (h : ¬ (bits < 1 ∨ bits > Config.BMAX)) :
    exec (.cfg bits) s = .next (respond okResponse { s with cfgBits := BitVec.ofNat _ bits }) := by
  simp only [exec, execCfg, if_neg h]

theorem exec_end (e d : Bool) (s : State) :
    exec (.endUnits e d) s = .next (respond okResponse (closeDecoder d (closeEncoder e s))) := rfl

theorem exec_stat (s : State) :
    exec .stat s = .next (respond { okResponse with val := (statusImage s).setWidth _ } s) := rfl

/-! ### Inversion -/

/-- What a command can do: raise one of its faults, or answer `st = 0` and leave flags, inputs and earlier responses
alone. -/
theorem exec_cases (i : Instr) (s : State) :
    (∃ c, c ≠ .illegal ∧ exec i s = .next (raiseFault c s)) ∨
    (∃ r t, exec i s = .next t ∧ r.st = 0 ∧ t.err = s.err ∧ t.inputs = s.inputs ∧
      t.responses = s.responses ++ [r]) := by
  cases i with
  | cfg bits =>
    by_cases h : bits < 1 ∨ bits > Config.BMAX
    · exact .inl ⟨.param, by decide, exec_cfg_refused s h⟩
    · exact .inr ⟨_, _, exec_cfg_legal s h, rfl, rfl, rfl, rfl⟩
  | qnt x =>
    by_cases h : s.cfgBits = 0
    · exact .inl ⟨.nocfg, by decide, exec_qnt_unconfigured x h⟩
    · exact .inr ⟨_, _, exec_qnt_configured x h, rfl, rfl, rfl, rfl⟩
  | qnt1 x => exact .inr ⟨_, _, exec_qnt1 x s, by unfold thresholdResponse; split <;> rfl, rfl, rfl, rfl⟩
  | encf x =>
    by_cases h : s.cfgBits = 0
    · exact .inl ⟨.nocfg, by decide, exec_encf_unconfigured x h⟩
    · exact .inr ⟨_, _, exec_encf_configured x h, rfl, rfl, rfl, rfl⟩
  | encn x =>
    cases h : s.enc.active with
    | false => exact .inl ⟨.seq, by decide, exec_encn_closed x h⟩
    | true => exact .inr ⟨_, _, exec_encn_open x h, rfl, rfl, rfl, rfl⟩
  | decf x =>
    by_cases h : s.cfgBits = 0
    · exact .inl ⟨.nocfg, by decide, exec_decf_unconfigured x h⟩
    · exact .inr ⟨_, _, exec_decf_configured x h, rfl, rfl, rfl, rfl⟩
  | decn k =>
    cases h : s.dec.active with
    | false => exact .inl ⟨.seq, by decide, exec_decn_closed k h⟩
    | true =>
      by_cases hk : (k : Int) ≤ levelMax s.dec.bits.toNat
      · exact .inr ⟨_, _, exec_decn_open k h hk, rfl, rfl, rfl, rfl⟩
      · exact .inl ⟨.code, by decide, exec_decn_outOfRange k h (by omega)⟩
  | endUnits e d => exact .inr ⟨_, _, exec_end e d s, rfl, by simp, by simp, by simp; rfl⟩
  | stat => exact .inr ⟨_, _, exec_stat s, rfl, rfl, rfl, rfl⟩

/-- Every command completes, with one response (R52): a fault's, or one with `st = 0` and the flags as they were. -/
theorem exec_completes (i : Instr) (s : State) : ∃ t r, exec i s = .next t ∧ t.inputs = s.inputs ∧
    t.responses = s.responses ++ [r] ∧
    ((∃ c, c ≠ .illegal ∧ t = raiseFault c s ∧ r = faultResponse c) ∨ (r.st = 0 ∧ t.err = s.err)) := by
  rcases exec_cases i s with ⟨c, hc, h⟩ | ⟨r, t, h, h1, h2, h3, h4⟩
  · exact ⟨_, _, h, rfl, rfl, .inl ⟨c, hc, rfl, rfl⟩⟩
  · exact ⟨_, _, h, h3, h4, .inr ⟨h1, h2⟩⟩

/-! ### One equation per kind of host input -/

theorem step_waiting {s : State} (h : s.inputs = []) : step s = .next s := by simp [step, takeInput, h]

theorem step_reset {s : State} {rest : List HostInput} (h : s.inputs = .reset :: rest) :
    step s = .next (resetInput { s with inputs := rest }) := by simp [step, takeInput, h]

theorem step_decoded {s : State} {w : CmdWord} {rest : List HostInput} {i : Instr} (h : s.inputs = .command w :: rest)
    (hd : decode w = .ok i) : step s = exec i { s with inputs := rest } := by simp [step, takeInput, h, hd]

/-- A word that decodes runs as its command. -/
theorem wordRuns_of_decode {w : CmdWord} {i : Instr} (h : decode w = .ok i) : wordRuns w i :=
  fun _ _ hs => step_decoded hs h

theorem step_illegal {s : State} {w : CmdWord} {rest : List HostInput} {e : DecodeError}
    (h : s.inputs = .command w :: rest) (hd : decode w = .error e) :
    step s = .next (raiseFault .illegal { s with inputs := rest }) := by
  simp [step, takeInput, h, hd, illegalCommand]

/-- What one step can do. -/
theorem step_cases (s : State) :
    (s.inputs = [] ∧ step s = .next s) ∨
    (∃ rest, s.inputs = .reset :: rest ∧ step s = .next (resetInput { s with inputs := rest })) ∨
    (∃ w rest i, s.inputs = .command w :: rest ∧ decode w = .ok i ∧ step s = exec i { s with inputs := rest }) ∨
    (∃ w rest e, s.inputs = .command w :: rest ∧ decode w = .error e ∧
      step s = .next (raiseFault .illegal { s with inputs := rest })) := by
  match h : s.inputs with
  | [] => exact .inl ⟨rfl, step_waiting h⟩
  | .reset :: rest => exact .inr (.inl ⟨rest, rfl, step_reset h⟩)
  | .command w :: rest =>
    match hd : decode w with
    | .ok i => exact .inr (.inr (.inl ⟨w, rest, i, rfl, hd, step_decoded h hd⟩))
    | .error e => exact .inr (.inr (.inr ⟨w, rest, e, rfl, hd, step_illegal h hd⟩))

end Sys2Proof.Machine
end

