-- ==== Sys2Proof/Laws/Streams.lean ====
section
/-! SUPPORT. An open stream in the rational terms of the spec: what PREV and the ports carry, that opening and advancing
keep (I2) and (I3) of R31 (spec/10_state.md), and commands executed one after another. -/

namespace Sys2Proof.Machine

/-- A configured depth is at least 1 (R21). -/
theorem one_le_of_ne_zero {c : Depth} (h : c ≠ 0) : 1 ≤ c.toNat := by
  rcases Nat.eq_zero_or_pos c.toNat with h0 | h0
  · exact absurd (BitVec.eq_of_toNat_eq h0) h
  · exact h0

/-- A port that carries `num_b(v)` reads as `v` (R12). -/
theorem portValue_of_numOf {b : Nat} (h : 1 ≤ b) {w : PortWord} {v : ℚ} (e : (w.toInt : ℚ) = numOf b v) :
    portValue b w = v := by
  have := scaleQ_pos h
  unfold portValue; rw [e]; unfold numOf; field_simp

/-- R122, R142: the first sample's port. -/
theorem firstNum_toPort {b : Nat} (h : 1 ≤ b) (h' : b ≤ Config.BMAX) (x : Sample) :
    ((toPort (firstNum b (sampleInt x))).toInt : ℚ) = numOf b (clip (sampleValue x) (-1) 1) := by
  rw [← firstNum_cast h]; unfold firstNum; rw [clipScaled_toPort h h']

/-- R123, R142: step 5 over integers is step 5 over rationals. -/
theorem reconNum_cast {b : Nat} (h : 1 ≤ b) (P k : Int) :
    (reconNum b P (residualNum b k) : ℚ) = numOf b (clip ((P : ℚ) / scale b + lvl b k * 2) (-1) 1) := by
  have := scaleQ_pos h
  unfold reconNum
  rw [clipScaled_cast h]
  push_cast
  rw [residualNum_cast h]
  unfold numOf
  congr 2
  field_simp

/-- PREV of an open stream is within [-1, 1] (R25, R31). -/
theorem prev_mem {u : StreamRegs} (hok : streamOk u) (h : u.active = true) :
    -1 ≤ portValue u.bits.toNat u.prev ∧ portValue u.bits.toNat u.prev ≤ 1 := by
  obtain ⟨h1, -, h3, h4⟩ := hok h
  have hS := scaleQ_pos h1
  unfold portValue; rw [le_div_iff₀ hS, div_le_iff₀ hS]
  exact ⟨by exact_mod_cast (by omega), by exact_mod_cast (by omega)⟩

/-- A closed unit meets (I2), (I3). -/
theorem streamOk_of_closed {u : StreamRegs} (h : u.active = false) : streamOk u := by
  intro h'; rw [h] at h'; cases h'

/-- A FIRST command opens a stream that meets (I2), (I3). -/
theorem streamOk_openStream {c : Depth} (x : Sample) (h : c ≠ 0) (h' : c.toNat ≤ Config.BMAX) :
    streamOk (openStream c x) := by
  intro _
  refine ⟨one_le_of_ne_zero h, h', ?_⟩
  show _ ≤ (toPort (clipScaled _ _)).toInt ∧ (toPort (clipScaled _ _)).toInt ≤ _
  rw [clipScaled_toPort (one_le_of_ne_zero h) h']
  exact clipScaled_bounds (one_le_of_ne_zero h) _

/-- A NEXT command keeps (I2), (I3). -/
theorem streamOk_advanceStream {u : StreamRegs} (k : Int) (h : u.active = true) (hok : streamOk u) :
    streamOk (advanceStream u k) := by
  intro _
  obtain ⟨h1, h2, -⟩ := hok h
  refine ⟨h1, h2, ?_⟩
  show _ ≤ (toPort (clipScaled _ _)).toInt ∧ (toPort (clipScaled _ _)).toInt ≤ _
  rw [clipScaled_toPort h1 h2]
  exact clipScaled_bounds h1 _

/-! ### Commands one after another -/

theorem execAll_cons {i : Instr} {s t : State} (h : exec i s = .next t) (rest : List Instr) :
    execAll (i :: rest) s = execAll rest t := by simp only [execAll, h]

theorem execAll_append {is : List Instr} {s t : State} (h : execAll is s = .next t) (js : List Instr) :
    execAll (is ++ js) s = execAll js t := by
  induction is generalizing s with
  | nil => simp only [execAll] at h; injection h with h; rw [h]; rfl
  | cons i is ih =>
    simp only [execAll, List.cons_append] at h ⊢
    cases e : exec i s <;> rw [e] at h <;> simp at h ⊢
    exact ih h

end Sys2Proof.Machine
end

