-- ==== Sys2Proof/Laws/General.lean ====
section
/-! SUPPORT. The block for every choice of the parameters (Machine/General.lean): its small lemmas, the arithmetic of its
scale and ports under R5's constraints, and its terms at the defaults beside the machine's. -/

namespace Sys2Proof.General

open Sys2Proof.Machine

variable {p : Params}

/-! ### Words -/

/-- A reserved operand bit is set exactly when the operand is `2^n` or more (R71). -/
theorem reservedSet_iff (n : Nat) (op : BitVec p.SW) : reservedSet n op = true ↔ 2 ^ n ≤ op.toNat := by
  have : 0 < 2 ^ n := by positivity
  simp [reservedSet, Nat.div_eq_zero_iff]

/-- The step on `{opc, op}`, by opcode (R70, R72). -/
theorem step_append (s : Block p) (opc : BitVec 4) (op : BitVec p.SW) : step s (opc ++ op) =
    match opc.toNat with
    | 0x1 => cfg op s
    | 0x2 => qnt op s
    | 0x3 => qnt1 op s
    | 0x4 => encf op s
    | 0x5 => encn op s
    | 0x6 => decf op s
    | 0x7 => decn op s
    | 0x8 => endUnits op s
    | 0x9 => stat op s
    | _ => raise .illegal s := by
  have e1 : (opc ++ op : BitVec p.CW).extractLsb' 0 p.SW = op := by
    apply BitVec.eq_of_toNat_eq
    rw [BitVec.extractLsb'_toNat, concat_toNat]
    simp [Nat.shiftRight_zero, Nat.mod_eq_of_lt op.isLt]
  have e2 : (opc ++ op : BitVec p.CW).extractLsb' p.SW p.OPW = opc := by
    apply BitVec.eq_of_toNat_eq
    have : 0 < 2 ^ p.SW := by positivity
    rw [BitVec.extractLsb'_toNat, concat_toNat, Nat.shiftRight_eq_div_pow, Nat.add_comm,
      Nat.add_mul_div_right _ _ this, Nat.div_eq_of_lt op.isLt, Nat.zero_add, Nat.mod_eq_of_lt opc.isLt]
  unfold step
  simp only [e1, e2] <;> rfl

/-- The reserved opcodes (R73(a)). -/
theorem step_reserved (s : Block p) {opc : BitVec 4} (h : opc = 0 ∨ 10 ≤ opc.toNat) (op : BitVec p.SW) :
    step s (opc ++ op) = raise .illegal s := by
  rw [step_append]
  rcases h with rfl | h
  · rfl
  · split <;> first | rfl | omega

/-! ### Scale and ports -/

theorem one_le_scale (p : Params) {b : Nat} (h : 1 ≤ b) : 1 ≤ scale p b := by
  have := one_le_levelMax h
  have h2 : (1 : Int) ≤ 2 ^ p.F := one_le_pow₀ (by norm_num)
  unfold scale; nlinarith

theorem scaleQ_pos (p : Params) {b : Nat} (h : 1 ≤ b) : (0 : ℚ) < scale p b := by
  have := one_le_scale p h; exact_mod_cast (by omega : 0 < scale p b)

theorem levelMax_lt_pow {b : Nat} (h : b ≤ p.BMAX) : levelMax b < 2 ^ p.BMAX := by
  have : (2 : Int) ^ b ≤ 2 ^ p.BMAX := pow_le_pow_right₀ (by norm_num) h
  unfold levelMax; omega

/-- A port holds twice the scale of every legal depth (R5: `SW ≥ F + 2`). -/
theorem two_scale_lt (hp : p.legal) {b : Nat} (h : b ≤ p.BMAX) : 2 * scale p b < 2 ^ (p.PW - 1) := by
  obtain ⟨-, h2, -⟩ := hp
  have h1 := levelMax_lt_pow h
  have e : (2 : Int) ^ (p.F + 1 + p.BMAX) ≤ 2 ^ (p.PW - 1) :=
    pow_le_pow_right₀ (by norm_num) (by unfold Params.PW; omega)
  rw [pow_add, pow_succ] at e
  have hF : (1 : Int) ≤ 2 ^ p.F := one_le_pow₀ (by norm_num)
  unfold scale
  nlinarith

/-- An integer within a word's signed range is read back. -/
theorem toInt_ofInt_of_mem {w : Nat} (hw : 1 ≤ w) {z : Int} (h : -2 ^ (w - 1) ≤ z) (h' : z < 2 ^ (w - 1)) :
    (BitVec.ofInt w z).toInt = z := by
  rw [BitVec.toInt_ofInt]
  obtain ⟨n, rfl⟩ : ∃ n, w = n + 1 := ⟨w - 1, by omega⟩
  rw [Nat.add_sub_cancel] at h h'
  have e : ((2 ^ (n + 1) : Nat) : Int) = 2 * 2 ^ n := by push_cast; ring
  apply Int.bmod_eq_of_le
  · rw [e]; omega
  · rw [e]; omega

/-- The floor in `toPort` is exact on a whole number of `1 / S(b)` (R12). -/
theorem toPort_of_int {b : Nat} {v : ℚ} {z : Int} (h : (z : ℚ) = v * scale p b) : toPort p b v = BitVec.ofInt _ z := by
  unfold toPort; rw [← h, Int.floor_intCast]

/-- A value within [-1, 1] is within `[-S, S]` on its port. -/
theorem toPort_mem (hp : p.legal) {b : Nat} (h1 : 1 ≤ b) (h : b ≤ p.BMAX) {v : ℚ} (hv : -1 ≤ v) (hv' : v ≤ 1) :
    -(scale p b) ≤ (toPort p b v).toInt ∧ (toPort p b v).toInt ≤ scale p b := by
  have hS := scaleQ_pos p h1
  have hS' := one_le_scale p h1
  have h2S := two_scale_lt hp h
  have a1 : -(scale p b) ≤ ⌊v * scale p b⌋ := by rw [Int.le_floor]; push_cast; nlinarith
  have a2 : ⌊v * scale p b⌋ ≤ scale p b := by
    have : (⌊v * scale p b⌋ : ℚ) ≤ scale p b := (Int.floor_le _).trans (by nlinarith)
    exact_mod_cast this
  obtain ⟨-, -, -, -, h5, -⟩ := hp
  unfold toPort
  rw [toInt_ofInt_of_mem (by unfold Params.PW; omega) (by omega) (by omega)]
  exact ⟨a1, a2⟩

/-- R12: a level's numerator. -/
theorem lvl_num (p : Params) {b : Nat} (h1 : 1 ≤ b) (k : Int) :
    (((2 * k - levelMax b) * 2 ^ p.F : Int) : ℚ) = lvl b k * scale p b := by
  have := levelMaxQ_pos h1
  unfold lvl scale; push_cast; field_simp; ring

/-- R12: a sample's numerator. -/
theorem sample_num (p : Params) (b : Nat) (x : BitVec p.SW) :
    ((x.toInt * levelMax b : Int) : ℚ) = sampleValue p x * scale p b := by
  have : (2 : ℚ) ^ p.F ≠ 0 := by positivity
  unfold sampleValue scale; push_cast; field_simp

/-! ### At the defaults -/

theorem scale_defaults (b : Nat) : scale Config.defaults b = Machine.scale b := rfl

theorem portValue_defaults (b : Nat) (w : PortWord) : portValue Config.defaults b w = Machine.portValue b w := rfl

theorem sampleValue_defaults (x : Sample) : sampleValue Config.defaults x = Machine.sampleValue x := rfl

theorem toPort_defaults {b : Nat} {v : ℚ} {z : Int} (h : (z : ℚ) = numOf b v) :
    toPort Config.defaults b v = Machine.toPort z := toPort_of_int h

theorem streamOf_closed {u : StreamRegs} (h : u.active = false) : streamOf u = none := by simp [streamOf, h]

theorem streamOf_open {u : StreamRegs} (h : u.active = true) : streamOf u = some { bits := u.bits, prev := u.prev } := by
  simp [streamOf, h]

theorem isSome_streamOf (u : StreamRegs) : (streamOf u).isSome = u.active := by
  unfold streamOf; cases u.active <;> rfl

theorem shownDepth_streamOf (u : StreamRegs) : shownDepth (streamOf u) = Machine.shownDepth u := by
  unfold streamOf Machine.shownDepth; cases u.active <;> rfl

/-- Fault entry is the same on both sides (R207). -/
theorem raise_blockOf (c : ErrCode) (s : State) :
    raise c (blockOf s) = (blockOf (raiseFault c s), answerOf (faultResponse c)) := rfl

end Sys2Proof.General
end

