-- ==== Sys2Proof/Laws/PerInstr.lean ====
section
/-! SUPPORT. A statement about every command as syntax, one lemma per command (spec/30_encoding.md R71, R76). -/

namespace Sys2Proof.Laws.OperandFits

/-- The number of operand bits the command's format uses (R71). -/
abbrev width : Instr → Nat
  | .cfg _ => 5
  | .qnt _ => 16
  | .qnt1 _ => 16
  | .encf _ => 16
  | .encn _ => 16
  | .decf _ => 16
  | .decn _ => 16
  | .endUnits _ _ => 2
  | .stat => 0

/-- A well-formed command sets no operand bit above its format's field: those are R71's reserved bits. -/
def Statement (i : Instr) : Prop := i.wellFormed = true → (operandBits i).toNat < 2 ^ width i

theorem cfg (bits : Nat) : Statement (.cfg bits) := by
  intro h
  have h' : bits < 32 := by simpa [Instr.wellFormed] using h
  simp only [operandBits, width, BitVec.toNat_ofNat]
  omega

theorem qnt (x : Sample) : Statement (.qnt x) := fun _ => x.isLt

theorem qnt1 (x : Sample) : Statement (.qnt1 x) := fun _ => x.isLt

theorem encf (x : Sample) : Statement (.encf x) := fun _ => x.isLt

theorem encn (x : Sample) : Statement (.encn x) := fun _ => x.isLt

theorem decf (x : Sample) : Statement (.decf x) := fun _ => x.isLt

theorem decn (k : Nat) : Statement (.decn k) := fun _ => (operandBits (.decn k)).isLt

theorem endUnits (e d : Bool) : Statement (.endUnits e d) := by
  intro _; cases e <;> cases d <;> decide

theorem stat : Statement .stat := fun _ => by decide

end Sys2Proof.Laws.OperandFits
end

