-- ==== Sys2Proof/Tests/Slice0.lean ====
section
/-! SUPPORT. The model's own tests: ill-formed commands refused, words written out from the spec's encodings, one step of
each command, faults, and a witness for the hypotheses of every statement. Every expected value is one of
spec/95_test_vectors.md (named L1.1 to L2.8), 96_test_programs.md (P3, P4) or a rule's own text. -/

namespace Sys2Proof.Tests

open Sys2Proof.Machine

/-- The state after reset with depth `b` set. -/
def ready (b : Depth) : State := { State.reset with cfgBits := b }

/-- `ready b` with an encode stream open at depth `b`, PREV `p`. -/
def encAt (b : Depth) (p : PortWord) : State := { ready b with enc := { active := true, bits := b, prev := p } }

/-- `ready b` with a decode stream open at depth `b`, PREV `p`. -/
def decAt (b : Depth) (p : PortWord) : State := { ready b with dec := { active := true, bits := b, prev := p } }

/-- `s` with one command word presented. -/
def given (w : CmdWord) (s : State) : State := { s with inputs := [.command w] }

/-- The state a run goes on in. -/
def after : Host.Outcome State Fault Refusal → Option State
  | .next s => some s
  | .fault _ => none
  | .refused _ => none

/-- The last response of the state a run goes on in. -/
def answer (o : Host.Outcome State Fault Refusal) : Option Response := (after o).bind fun s => s.responses.getLast?

/-! ### Well-formed and ill-formed commands (R71) -/

theorem test_wellFormed_refuses_cfg_32 : (Instr.cfg 32).wellFormed = false := by decide
theorem test_wellFormed_refuses_decn_65536 : (Instr.decn 65536).wellFormed = false := by decide
theorem test_wellFormed_admits_the_largest : (Instr.cfg 31).wellFormed = true ∧ (Instr.decn 65535).wellFormed = true := by
  decide

/-! ### Decoding: words bit by bit from R70 to R72, the words of L1 and L2 beside them -/

theorem test_decode_cfg : decode 0b0001_0000000000010000#20 = .ok (.cfg 16) ∧ decode 0x1001F#20 = .ok (.cfg 31) := by decide
theorem test_decode_qnt : decode 0b0010_1100000000000000#20 = .ok (.qnt 0b1100000000000000#16) := by decide
theorem test_decode_qnt1 : decode 0b0011_1111000000000000#20 = .ok (.qnt1 0b1111000000000000#16) := by decide
theorem test_decode_encf : decode 0b0100_1110000000000000#20 = .ok (.encf 0b1110000000000000#16) := by decide
theorem test_decode_encn : decode 0b0101_0101000000000000#20 = .ok (.encn 0b0101000000000000#16) := by decide
theorem test_decode_decf : decode 0b0110_0110000000000000#20 = .ok (.decf 0b0110000000000000#16) := by decide
theorem test_decode_decn : decode 0b0111_1000000000000000#20 = .ok (.decn 32768) := by decide
theorem test_decode_end :
    decode 0b1000_0000000000000001#20 = .ok (.endUnits true false) ∧
      decode 0b1000_0000000000000010#20 = .ok (.endUnits false true) ∧
      decode 0b1000_0000000000000000#20 = .ok (.endUnits false false) := by decide
theorem test_decode_stat : decode 0b1001_0000000000000000#20 = .ok .stat := by decide

/-- L2.7: the reserved opcodes. -/
theorem test_decode_reserved_opcodes :
    decode 0x00000 = .error (.reservedOpcode 0) ∧ decode 0x0FFFF = .error (.reservedOpcode 0) ∧
      decode 0xA0000 = .error (.reservedOpcode 0xA) ∧ decode 0xB1234 = .error (.reservedOpcode 0xB) ∧
      decode 0xC0000 = .error (.reservedOpcode 0xC) ∧ decode 0xD0000 = .error (.reservedOpcode 0xD) ∧
      decode 0xE0000 = .error (.reservedOpcode 0xE) ∧ decode 0xFFFFF = .error (.reservedOpcode 0xF) := by decide

/-- L2.7: the reserved operand bits. -/
theorem test_decode_reserved_operand_bits :
    decode 0x10020 = .error (.reservedOperandBit 1) ∧ decode 0x10108 = .error (.reservedOperandBit 1) ∧
      decode 0x18000 = .error (.reservedOperandBit 1) ∧ decode 0x10120 = .error (.reservedOperandBit 1) ∧
      decode 0x80004 = .error (.reservedOperandBit 8) ∧ decode 0x8FFFF = .error (.reservedOperandBit 8) ∧
      decode 0x90001 = .error (.reservedOperandBit 9) ∧ decode 0x9FFFF = .error (.reservedOperandBit 9) := by decide

/-- The host's two ways in, on `ENCF 0.5`. -/
theorem test_table_word_runs :
    decodeTableWord 24 0x42000 = some (.encf 0x2000) ∧
      step (State.withFetchWord (ready 8) 24 0x42000) = exec (.encf 0x2000) (ready 8) := by
  exact ⟨by decide, rfl⟩

/-! ### One step of each command -/

/-- L2.6: `CFG 16`. -/
theorem test_cfg_stores_16 : exec (.cfg 16) State.reset = .next { ready 16 with responses := [zeroResponse] } := by rfl

/-- L2.7: `CFG 17` answers 2, keeps the depth, and sets bit 8 of the image. -/
theorem test_cfg_refuses_17 : exec (.cfg 17) (ready 3) =
    .next { ready 3 with err := 0b00010, responses := [{ zeroResponse with st := 2 }] } := by rfl

/-- L2.1: `QNT #0x2AAB` at depth 2, just above the boundary 2/3. -/
theorem test_qnt_boundary : exec (.qnt 0x2AAB) (ready 2) =
    .next { ready 2 with responses := [{ st := 0, cv := true, b := 2, code := 3, res := 0, val := 49152 }] } := by rfl

/-- L2.1: `QNT #0x8000` at depth 8: a tie out of range, to the larger index -127. -/
theorem test_qnt_tie_below_range : exec (.qnt 0x8000) (ready 8) =
    .next { ready 8 with responses := [{ st := 0, cv := true, b := 8, code := -127, res := 0, val := -8339456 }] } := by rfl

/-- L2.2: `QNT1 0` straight after reset. -/
theorem test_qnt1_zero : exec (.qnt1 0) State.reset =
    .next { State.reset with responses := [{ st := 0, cv := true, b := 1, code := 1, res := 0, val := 16384 }] } := by rfl

/-- L2.2: `QNT1 #0xFFFF`. -/
theorem test_qnt1_negative : exec (.qnt1 0xFFFF) State.reset =
    .next { State.reset with responses := [{ st := 0, cv := true, b := 1, code := 0, res := 0, val := -16384 }] } := by rfl

/-- P4: `ENCF 1.5` on an open encoder restarts it at the current depth 2 and clips. -/
theorem test_encf_restarts : exec (.encf 0x6000) { encAt 4 8192 with cfgBits := 2 } =
    .next
      { encAt 2 49152 with
        responses := [{ st := 0, cv := false, b := 2, code := 0, res := 0, val := 49152 }] } := by rfl

/-- L2.7: `ENCF 0.5` from reset. -/
theorem test_encf_unconfigured : exec (.encf 0x2000) State.reset =
    .next { State.reset with err := 0b00100, responses := [{ zeroResponse with st := 3 }] } := by rfl

/-- L2.4, bits = 8, row 1: the tie at `diff = 0`. -/
theorem test_encn_tie : exec (.encn 0x2000) (encAt 8 2088960) =
    .next
      { encAt 8 2121728 with
        responses := [{ st := 0, cv := true, b := 8, code := 128, res := 32768, val := 2121728 }] } := by rfl

/-- L2.4, bits = 8, row 1 of the sixth stream: step 2's clip acts, `D ≠ Dn`. -/
theorem test_encn_overload : exec (.encn 0x8000) (encAt 8 4177920) =
    .next
      { encAt 8 (-4177920) with
        responses := [{ st := 0, cv := true, b := 8, code := 0, res := -8355840, val := -4177920 }] } := by rfl

/-- L2.5: `DECF #0x8000` at depth 8. -/
theorem test_decf_clips : exec (.decf 0x8000) (decAt 8 4177920) =
    .next
      { decAt 8 (-4177920) with
        responses := [{ st := 0, cv := false, b := 8, code := 0, res := 0, val := -4177920 }] } := by rfl

/-- L2.5, depth 16: `DECN 65535` from 0. -/
theorem test_decn_largest_code : exec (.decn 65535) (decAt 16 0) =
    .next
      { decAt 16 1073725440 with
        responses := [{ st := 0, cv := false, b := 16, code := 0, res := 2147450880, val := 1073725440 }] } := by rfl

/-- L2.5, depth 1: `DECN 2` is refused and leaves the stream. -/
theorem test_decn_refuses_2 : exec (.decn 2) (decAt 1 (-16384)) =
    .next { decAt 1 (-16384) with err := 0b10000, responses := [{ zeroResponse with st := 5 }] } := by rfl

/-- L2.6: `END ENC` closes the encoder and leaves the decoder. -/
theorem test_end_closes_one_unit :
    (after (exec (.endUnits true false) { encAt 8 2088960 with dec := (decAt 8 (-4177920)).dec })).map
      (fun s => (s.cfgBits, s.enc.active, s.dec)) = some (8, false, (decAt 8 (-4177920)).dec) := by decide

/-- L2.6: `END BOTH` on closed units changes nothing. -/
theorem test_end_on_closed_units : exec (.endUnits true true) (ready 5) =
    .next { ready 5 with responses := [zeroResponse] } := by rfl

/-- L2.6: the image `0x00108065`: depth 5, both units open at depth 8. -/
theorem test_stat_open_units :
    answer (exec .stat { encAt 8 2088960 with cfgBits := 5, dec := (decAt 8 (-4177920)).dec }) =
      some { zeroResponse with val := 0x00108065 } := by decide

/-- P3: the image `0x00000F82`: all five flags, both units closed. -/
theorem test_stat_flags : answer (exec .stat { ready 2 with err := 0b11111 }) =
    some { zeroResponse with val := 0x00000F82 } := by decide

/-! ### The transaction, faults, reset -/

/-- L2.7: `0x10120`, a reserved bit and a low field of 0, answers 1 and sets only that flag. -/
theorem test_illegal_before_param : step (given 0x10120 State.reset) =
    .next { State.reset with err := 0b00001, responses := [{ zeroResponse with st := 1 }] } := by rfl

/-- L2.7: `DECN 65535` on a closed decoder answers 4, not 5. -/
theorem test_seq_before_code : step (given 0x7FFFF State.reset) =
    .next { State.reset with err := 0b01000, responses := [{ zeroResponse with st := 4 }] } := by rfl

/-- R230: the reset input clears depth, flags and both ACTIVE flags. -/
theorem test_reset_input :
    step (assertReset { encAt 8 2088960 with err := 0b11111, dec := (decAt 8 0).dec }) = .next State.reset := by rfl

/-! ### The assembler notation (R78): lines and words of L1.1 and L2.1 -/

theorem test_assemble_lines :
    (assembleLine "CFG 1 ; one bit".toList = .ok (some (.cfg 1)) ∧
      assembleLine "QNT -1".toList = .ok (some (.qnt 0xC000)) ∧
      assembleLine "QNT #0xEAAB".toList = .ok (some (.qnt 0xEAAB)) ∧
      assembleLine "ENCF 0.5".toList = .ok (some (.encf 0x2000)) ∧
      assembleLine "QNT 3/8".toList = .ok (some (.qnt 0x1800))) ∧
    (assembleLine "QNT 0.2".toList = .error .notRepresentable ∧ assembleLine "QNT 2".toList = .error .outOfRange ∧
      assembleLine "END BOTH".toList = .ok (some (.endUnits true true)) ∧
      assembleLine "STAT".toList = .ok (some .stat) ∧ assembleLine "RAW 00000".toList = .error .unknownMnemonic) := by
  decide +kernel

/-- R79: an empty ENCODE has no expansion. -/
theorem test_expand_encode :
    expandPseudo (.encode 8 []) = none ∧
      expandPseudo (.encode 8 [0x2000, 0x2000]) =
        some [.cfg 8, .encf 0x2000, .encn 0x2000, .endUnits true false] := by decide

/-! ### The host functions (R182, R184, R185): D0's scenarios, L1.2 to L1.4 -/

theorem test_dpcmEncode_scenario_2 :
    dpcmEncode 8 [1 / 2, 1 / 2, 1 / 2] = some [(1 / 2, 0), (259 / 510, 2 / 255), (1 / 2, -2 / 255)] := by decide +kernel

/-- L1.1, and U3: no result at depth 0. -/
theorem test_quantizeSignal_scenario_1 :
    quantizeSignal 1 [-1, 0, 1] = some [-1, 1, 1] ∧ quantizeSignal 0 [-1, 0, 1] = none := by decide +kernel

theorem test_injectErrors_scenario_3 :
    injectErrors (1 / 2) [0, 3] [1 / 5, 1 / 5, 1 / 5, 1 / 5] = some ([-1 / 10, 1 / 5, 1 / 5, -1 / 10], 2) := by
  decide +kernel

theorem test_evaluate_scenario_4 :
    evaluate [1, 1, 1] [1, 1, -1] = some { mse := 4 / 3, snr := some (.tenLog10 (3 / 4)) } := by decide +kernel

/-! ### The general block (R5) with F = 8, SW = 12, BMAX = 8, BW = 4, by hand from the rules -/

/-- A choice of the parameters that is not the defaults. -/
def small : Params := { F := 8, SW := 12, BMAX := 8, BW := 4 }

theorem test_small_widths : small.legal ∧ small.CW = 16 ∧ small.PW = 20 ∧ small.KW = 12 := by decide

/-- R71, R141: `op[8]` of DECN is reserved here, and the closed decoder is not looked at. -/
theorem test_small_decn_reserved_bit :
    General.step (General.Block.reset small) (0x7100#16) =
      ({ General.Block.reset small with err := 0b00001 }, { st := 1 }) := by decide

/-- R120: ENCF 0.5 (`m = 128`) at depth 3: `num_b(1/2) = 128·7`. -/
theorem test_small_encf :
    General.step { General.Block.reset small with cfgBits := 3 } (0x4080#16) =
      ({ General.Block.reset small with cfgBits := 3, enc := some { bits := 3, prev := 896 } }, { b := 3, val := 896 }) := by
  decide +kernel

/-- R121's example, `b = 3`, `prev = 0`, ENCN 1: `code = 5`, `dq = rec = 6/7`, so `res = val = 6·256`. -/
theorem test_small_encn :
    General.step { General.Block.reset small with enc := some { bits := 3, prev := 0 } } (0x5100#16) =
      ({ General.Block.reset small with enc := some { bits := 3, prev := 1536 } },
        { cv := true, b := 3, code := 5, res := 1536, val := 1536 }) := by decide +kernel

/-! ### Witnesses: for each statement with hypotheses, states and operands that meet them, at the edges of its clauses -/

theorem witness_DecodeOfEncodeIsTheCommand :
    (Instr.cfg 0).wellFormed = true ∧ (Instr.cfg 31).wellFormed = true ∧ (Instr.decn 65535).wellFormed = true := by decide

theorem witness_LegalWordReencodesToItself :
    decode 0x1001F = .ok (.cfg 31) ∧ decode 0x7FFFF = .ok (.decn 65535) ∧ decode 0x80003 = .ok (.endUnits true true) := by
  decide

theorem witness_OpcodeMapNineCommandsSevenReserved :
    ((0 : Opcode) = 0 ∨ 0xA ≤ (0 : Opcode).toNat) ∧ ((0xA : Opcode) = 0 ∨ 0xA ≤ (0xA : Opcode).toNat) ∧
      ((0xF : Opcode) = 0 ∨ 0xA ≤ (0xF : Opcode).toNat) := by decide

theorem witness_StepExecutesTheDecodedCommand :
    (given 0x42000 (ready 8)).inputs = .command 0x42000 :: [] ∧ decode 0x42000 = .ok (.encf 0x2000) := by decide

theorem witness_FetchWordRunsTheCommand : (Instr.decn 65535).wellFormed = true := by decide

theorem witness_WaitingBlockIsUnchanged : (encAt 8 2088960).inputs = [] := by decide

/-- A legal word and an illegal one. -/
theorem witness_EveryCommandCompletesWithOneResponse :
    (given 0x90000 State.reset).inputs = .command 0x90000 :: [] ∧
      (given 0xFFFFF State.reset).inputs = .command 0xFFFFF :: [] := by decide

theorem witness_StepIgnoresLaterInputs :
    step { ready 8 with inputs := .command 0x90000 :: [] } =
      .next { ready 8 with responses := [{ zeroResponse with val := 8 }] } := by rfl

theorem witness_WaitingCommandsAreAnsweredInTurn :
    ({ State.reset with inputs := [.command 0x10008, .command 0xFFFFF] } : State).inputs =
      [0x10008, 0xFFFFF].map .command := by decide

/-- Each clause of `isIllegalWord` at its edge, and the largest words short of it. -/
theorem witness_IllegalWordRaisesErrIllegal :
    (given 0x10020 State.reset).inputs = .command 0x10020 :: [] ∧
    (isIllegalWord 0x0FFFF ∧ isIllegalWord 0xA0000 ∧ isIllegalWord 0x10020 ∧ isIllegalWord 0x80004 ∧
      isIllegalWord 0x90001) ∧
    (¬ isIllegalWord 0x1001F ∧ ¬ isIllegalWord 0x20000 ∧ ¬ isIllegalWord 0x7FFFF ∧ ¬ isIllegalWord 0x80003 ∧
      ¬ isIllegalWord 0x90000) := by
  refine ⟨by decide, ⟨by decide, by decide, by decide, by decide, by decide⟩, ?_, ?_, ?_, ?_, ?_⟩ <;> decide

/-- One command that faults and one that does not. -/
theorem witness_FaultEntryWritesOnlyTheFlag :
    step (given 0x22000 State.reset) = .next (afterFault 3 State.reset) ∧
      step (given 0x10010 State.reset) = .next { ready 16 with responses := [zeroResponse] } := by
  exact ⟨rfl, rfl⟩

/-- The order of R206 where two faults could apply, and each edge of a check. -/
theorem witness_FaultsFollowThePriorityOrder :
    (given 0x10120 State.reset).inputs = .command 0x10120 :: [] ∧
    (faultByPriority State.reset 0x10120 = 1 ∧ faultByPriority State.reset 0x10000 = 2 ∧
      faultByPriority State.reset 0x10001 = 0 ∧ faultByPriority State.reset 0x10010 = 0 ∧
      faultByPriority State.reset 0x10011 = 2) ∧
    (faultByPriority State.reset 0x22000 = 3 ∧ faultByPriority (ready 1) 0x22000 = 0 ∧
      faultByPriority State.reset 0x7FFFF = 4 ∧ faultByPriority (decAt 2 0) 0x70003 = 0 ∧
      faultByPriority (decAt 2 0) 0x70004 = 5 ∧ faultByPriority State.reset 0x32000 = 0) := by decide

/-- All three commands of the rule raise it at `CFG.BITS = 0`; QNT does not at 1. -/
theorem witness_UnconfiguredUseRaisesErrNocfg :
    (answer (exec (.qnt 0) State.reset)).map (·.st) = some 3 ∧
      (answer (exec (.encf 0) State.reset)).map (·.st) = some 3 ∧
      (answer (exec (.decf 0) State.reset)).map (·.st) = some 3 ∧
      (answer (exec (.qnt 0) (ready 1))).map (·.st) = some 0 := by decide

theorem witness_NextOnClosedUnitRaisesErrSeq :
    (answer (exec (.encn 0) (decAt 1 0))).map (·.st) = some 4 ∧
      (answer (exec (.decn 0) (encAt 1 0))).map (·.st) = some 4 ∧
      (answer (exec (.encn 0) (encAt 1 0))).map (·.st) = some 0 := by decide

theorem witness_FlagsStayZeroExactlyWithoutFault :
    ({ State.reset with inputs := [.command 0x10008, .command 0xFFFFF] } : State).inputs =
      [0x10008, 0xFFFFF].map .command ∧ faultFree { State.reset with inputs := [.command 0x10008, .command 0xFFFFF] } := by
  decide

theorem witness_ErrFlagsAlterNoResult :
    (Instr.cfg 16 ≠ .stat ∧ exec (.cfg 16) State.reset = .next { ready 16 with responses := [zeroResponse] }) ∧
      exec .stat (ready 8) = .next { ready 8 with responses := [{ zeroResponse with val := 8 }] } := by
  exact ⟨⟨by decide, rfl⟩, rfl⟩

theorem witness_OnlyResetClearsFlagsAndConfiguration :
    (assertReset (encAt 8 2088960)).inputs = .reset :: [] ∧
      (given 0x10001 (ready 8)).inputs = .command 0x10001 :: [] ∧ (ready 8).cfgBits ≠ 0 ∧
      step (given 0x10001 (ready 8)) = .next { ready 1 with responses := [zeroResponse] } := by
  exact ⟨by decide, by decide, by decide, rfl⟩

/-- Not configured, and the smallest and the largest depth. -/
theorem witness_QntAnswersTheNearestLevel :
    State.reset.cfgBits = 0 ∧ ((ready 1).cfgBits ≠ 0 ∧ (ready 1).cfgBits.toNat ≤ Config.BMAX) ∧
      ((ready 16).cfgBits ≠ 0 ∧ (ready 16).cfgBits.toNat ≤ Config.BMAX) := by decide

theorem witness_QntIndexAndValueBounds : (ready 16).cfgBits ≠ 0 ∧ (ready 16).cfgBits.toNat ≤ Config.BMAX := by decide

/-- Depth 1, both ends of the range, two ordered points, and a point that is a tie beside one that is none. -/
theorem witness_QuantizerRangeIdempotenceErrorMonotone :
    1 ≤ 1 ∧ ((-1 : ℚ) ≤ -1 ∧ (-1 : ℚ) ≤ 1) ∧ ((-1 : ℚ) ≤ 1 ∧ (1 : ℚ) ≤ 1) ∧ isTie 1 0 ∧ ¬ isTie 1 1 := by
  refine ⟨le_refl _, by norm_num, by norm_num, ⟨0, by norm_num [levelMax]⟩, ?_⟩
  rintro ⟨n, h⟩
  norm_num [levelMax] at h
  have h2 : (1 : ℚ) = 2 * n := by linarith
  have h3 : (1 : Int) = 2 * n := by exact_mod_cast h2
  omega

theorem witness_Qnt1IsTheThresholdAtZero : 0 ≤ (0 : Sample).toInt ∧ (0xFFFF : Sample).toInt < 0 := by decide

theorem witness_Qnt1AgreesWithQntAtDepthOne : (ready 1).cfgBits = 1 := by decide

theorem witness_QntQnt1StatFrame :
    exec (.qnt 0) State.reset = .next (afterFault 3 State.reset) ∧
      exec .stat (ready 8) = .next { ready 8 with responses := [{ zeroResponse with val := 8 }] } := by
  exact ⟨rfl, rfl⟩

theorem witness_EncfOpensTheStream :
    State.reset.cfgBits = 0 ∧ ((ready 1).cfgBits ≠ 0 ∧ (ready 1).cfgBits.toNat ≤ Config.BMAX) ∧
      ((ready 16).cfgBits ≠ 0 ∧ (ready 16).cfgBits.toNat ≤ Config.BMAX) := by decide

/-- A closed unit; open ones at the smallest and the largest depth, PREV at each rail. -/
theorem witness_EncnIsTheSixSteps :
    (streamOk State.reset.enc ∧ State.reset.enc.active = false) ∧
      (streamOk (encAt 1 (-16384)).enc ∧ (encAt 1 (-16384)).enc.active = true) ∧
      (streamOk (encAt 16 1073725440).enc ∧ (encAt 16 1073725440).enc.active = true) := by decide

theorem witness_EncnResidualGridNeverZero :
    streamOk (encAt 16 1073725440).enc ∧ (encAt 16 1073725440).enc.active = true := by decide

/-- `x = 0.5` from `prev = 0.5` at depth 8: the difference is 0 and the output 259/510 (L1.2), so neither clip acts. -/
theorem witness_EncoderTracksWithinOneSpacing :
    (streamOk (encAt 8 2088960).enc ∧ (encAt 8 2088960).enc.active = true) ∧
      exec (.encn 0x2000) (encAt 8 2088960) = .next
        (afterEncn { st := 0, cv := true, b := 8, code := 128, res := 32768, val := 2121728 } (encAt 8 2088960)) ∧
      |sampleValue 0x2000 - portValue 8 2088960| ≤ 2 ∧ |portValue 8 2088960 + portValue 8 32768| ≤ 1 := by
  exact ⟨by decide, rfl, by decide +kernel, by decide +kernel⟩

/-- Depth 8 at `c = 0.5`, and depth 1 at `c = -1`, where `c + 2/M = 1`. -/
theorem witness_EncoderIdlePatternHasPeriodTwo :
    (streamOk (encAt 8 2088960).enc ∧ (encAt 8 2088960).enc.active = true ∧
      portValue 8 2088960 = sampleValue 0x2000 ∧ sampleValue 0x2000 + 2 / levelMax 8 ≤ 1) ∧
    (streamOk (encAt 1 (-16384)).enc ∧ (encAt 1 (-16384)).enc.active = true ∧
      portValue 1 (-16384) = sampleValue 0xC000 ∧ sampleValue 0xC000 + 2 / levelMax 1 = 1) := by
  exact ⟨⟨by decide, by decide, by decide +kernel, by decide +kernel⟩,
    ⟨by decide, by decide, by decide +kernel, by decide +kernel⟩⟩

/-- The largest sample at the lower rail, the smallest at the upper one. -/
theorem witness_EncoderOverloadReachesTheRail :
    (streamOk (encAt 8 (-4177920)).enc ∧ (encAt 8 (-4177920)).enc.active = true ∧
      2 < sampleValue 0x7FFF - portValue 8 (-4177920)) ∧
    (streamOk (encAt 8 4177920).enc ∧ (encAt 8 4177920).enc.active = true ∧
      sampleValue 0x8000 - portValue 8 4177920 < -2) := by
  exact ⟨⟨by decide, by decide, by decide +kernel⟩, ⟨by decide, by decide, by decide +kernel⟩⟩

/-- Both rails, with the sample at and just beyond the edge of each clause. -/
theorem witness_EncoderOutputStandsOnlyAtARail :
    (streamOk (encAt 8 4177920).enc ∧ (encAt 8 4177920).enc.active = true ∧ portValue 8 4177920 = 1 ∧
      1 ≤ sampleValue 0x4000) ∧
    (streamOk (encAt 8 (-4177920)).enc ∧ (encAt 8 (-4177920)).enc.active = true ∧ portValue 8 (-4177920) = -1 ∧
      sampleValue 0xBFFF < -1 ∧ ¬ sampleValue 0xC000 < -1) := by
  exact ⟨⟨by decide, by decide, by decide +kernel, by decide +kernel⟩,
    ⟨by decide, by decide, by decide +kernel, by decide +kernel, by decide +kernel⟩⟩

theorem witness_EncoderCommandsFrame :
    exec (.encf 0) State.reset = .next (afterFault 3 State.reset) ∧
      exec (.encn 0x2000) (encAt 8 2088960) = .next
        (afterEncn { st := 0, cv := true, b := 8, code := 128, res := 32768, val := 2121728 } (encAt 8 2088960)) := by
  exact ⟨rfl, rfl⟩

theorem witness_DecfOpensTheStream :
    State.reset.cfgBits = 0 ∧ ((ready 1).cfgBits ≠ 0 ∧ (ready 1).cfgBits.toNat ≤ Config.BMAX) ∧
      ((ready 16).cfgBits ≠ 0 ∧ (ready 16).cfgBits.toNat ≤ Config.BMAX) := by decide

/-- A closed unit; `k = M` and `k = M + 1` at the smallest depth, `k = M` at the largest; and the largest operand. -/
theorem witness_DecnIsStepsFourToSix :
    65535 < 2 ^ 16 ∧
    (streamOk State.reset.dec ∧ State.reset.dec.active = false) ∧
      (streamOk (decAt 1 (-16384)).dec ∧ (decAt 1 (-16384)).dec.active = true ∧ 1 ≤ 2 ^ 1 - 1 ∧ 2 ^ 1 - 1 < 2) ∧
      (streamOk (decAt 16 1073725440).dec ∧ (decAt 16 1073725440).dec.active = true ∧ 65535 ≤ 2 ^ 16 - 1) := by decide

theorem witness_DecoderCommandsFrame :
    exec (.decf 0) State.reset = .next (afterFault 3 State.reset) ∧
      exec (.decn 1) (decAt 1 4096) = .next
        (afterDecn { st := 0, cv := false, b := 1, code := 0, res := 32768, val := 16384 } (decAt 1 4096)) := by
  exact ⟨rfl, rfl⟩

/-- L2.5's wrong code: 10 for 9 at depth 4 from `prev = -11/30`; no clip acts on either. -/
theorem witness_WrongCodeShiftsTheReconstruction :
    (streamOk (decAt 4 (-90112)).dec ∧ (decAt 4 (-90112)).dec.active = true ∧ 9 ≤ 2 ^ 4 - 1 ∧ 10 ≤ 2 ^ 4 - 1) ∧
      exec (.decn 9) (decAt 4 (-90112)) = .next
        (afterDecn { st := 0, cv := false, b := 4, code := 0, res := 98304, val := 8192 } (decAt 4 (-90112))) ∧
      exec (.decn 10) (decAt 4 (-90112)) = .next
        (afterDecn { st := 0, cv := false, b := 4, code := 0, res := 163840, val := 73728 } (decAt 4 (-90112))) ∧
      |portValue 4 (-90112) + portValue 4 98304| ≤ 1 ∧ |portValue 4 (-90112) + portValue 4 163840| ≤ 1 := by
  exact ⟨by decide, rfl, rfl, by decide +kernel, by decide +kernel⟩

theorem witness_NextCommandsIgnoreCfgBits :
    exec (.encn 0x2000) (encAt 8 2088960) = .next
        (afterEncn { st := 0, cv := true, b := 8, code := 128, res := 32768, val := 2121728 } (encAt 8 2088960)) ∧
      exec (.decn 1) (decAt 1 4096) = .next
        (afterDecn { st := 0, cv := false, b := 1, code := 0, res := 32768, val := 16384 } (decAt 1 4096)) := by
  exact ⟨rfl, rfl⟩

theorem witness_FirstCommandsForgetTheUnit : (encAt 8 2088960).cfgBits ≠ 0 := by decide

/-- Both edges of the legal depths, and of the reserved bits. -/
theorem witness_CfgStoresALegalDepthOnly :
    (1 ≤ 1 ∧ 1 ≤ 16) ∧ (1 ≤ 16 ∧ 16 ≤ 16) ∧ (0 < 1 ∨ 16 < 0) ∧ (17 < 1 ∨ 16 < 17) ∧
      (given (0x1#4 ++ 31#16) State.reset).inputs = .command (0x1#4 ++ 31#16) :: [] ∧ (31#16).toNat < 32 ∧
      (given (0x1#4 ++ 32#16) State.reset).inputs = .command (0x1#4 ++ 32#16) :: [] ∧ 32 ≤ (32#16).toNat := by decide

theorem witness_EndClosesTheSelectedUnits :
    (false = false ∨ (encAt 8 0).enc.active = false) ∧ (true = false ∨ (ready 8).enc.active = false) ∧
      (given (0x8#4 ++ 3#16) State.reset).inputs = .command (0x8#4 ++ 3#16) :: [] ∧ (3#16).toNat < 4 ∧
      (given (0x8#4 ++ 4#16) State.reset).inputs = .command (0x8#4 ++ 4#16) :: [] ∧ 4 ≤ (4#16).toNat := by decide

/-- PREV at the rail, the invariant met, and a step that moves it to the other rail. -/
theorem witness_InvariantIsKeptByEveryStep :
    Inv (given 0x58000 (encAt 8 4177920)) ∧
      step (given 0x58000 (encAt 8 4177920)) = .next
        { encAt 8 (-4177920) with
          responses := [{ st := 0, cv := true, b := 8, code := 0, res := -8355840, val := -4177920 }] } := by
  exact ⟨by decide, rfl⟩

/-- A reachable state with a depth set, and its next step. -/
theorem witness_ReachableStatesMeetTheInvariant :
    Reachable { ready 16 with responses := [zeroResponse] } ∧
      step { ready 16 with responses := [zeroResponse] } = .next { ready 16 with responses := [zeroResponse] } := by
  exact ⟨.step (.present 0x10010 .reset) rfl, rfl⟩

theorem witness_CodecOutputsStayWithinOne :
    Inv (encAt 16 (-1073725440)) ∧ unitOf (.encn 0) = some .encoder ∧ unitOf (.decn 0) = some .decoder := by decide

theorem witness_ResponsesKeepTheirShape :
    Inv (given 0x22000 State.reset) ∧ responsesOk (given 0x22000 State.reset) ∧
      step (given 0x22000 State.reset) = .next (afterFault 3 State.reset) := by
  refine ⟨by decide, ?_, rfl⟩
  intro r h; cases h

/-- A step of a state and of one that differs from it in a closed unit's latches. -/
theorem witness_ClosedLatchesAreUnobservable :
    sameToHost (ready 8) { ready 8 with dec := { active := false, bits := 3, prev := 7 }, draws := 5 } ∧
      step (ready 8) = .next (ready 8) := by
  refine ⟨⟨rfl, rfl, ⟨rfl, fun _ => rfl⟩, ⟨rfl, ?_⟩, rfl, rfl⟩, rfl⟩
  intro h; cases h

theorem witness_CommandsOfDifferentUnitsCommute :
    unitOf (.encn 0x2000) = some .encoder ∧ unitOf (.decn 1) = some .decoder ∧ CodecUnit.encoder ≠ .decoder := by decide

/-- First samples 1 and 1.5 clip alike, at depth 8. -/
theorem witness_DecoderReproducesTheEncoder :
    (ready 8).cfgBits ≠ 0 ∧ (ready 8).cfgBits.toNat ≤ Config.BMAX ∧
      clip (sampleValue 0x6000) (-1) 1 = clip (sampleValue 0x4000) (-1) 1 := by
  exact ⟨by decide, by decide, by decide +kernel⟩

theorem witness_EncodeComputesDpcmEncode : 1 ≤ 1 ∧ 16 ≤ Config.BMAX := by decide

theorem witness_DecodeComputesDpcmDecode : 1 ≤ 2 ∧ 2 ≤ Config.BMAX ∧ ∀ k ∈ [0, 3], k ≤ 2 ^ 2 - 1 := by decide

/-- An operand other than 0 in STAT's word. -/
theorem witness_StatAnswersTheStatusImage :
    (given (0x9#4 ++ 0#16) State.reset).inputs = .command (0x9#4 ++ 0#16) :: [] ∧
      (given (0x9#4 ++ 1#16) State.reset).inputs = .command (0x9#4 ++ 1#16) :: [] ∧ (1#16) ≠ 0 := by decide

theorem witness_QuantizeComputesQuantizeSignal : 1 ≤ 1 ∧ 16 ≤ Config.BMAX := by decide

theorem witness_MachineIsTheGeneralBlockAtDefaults :
    Inv (given 0x58000 (encAt 8 4177920)) ∧ (given 0x58000 (encAt 8 4177920)).inputs = .command 0x58000 :: [] := by decide

/-- The smallest legal parameters and the defaults; an open stream at a rail. -/
theorem witness_GeneralInvariantIsKeptByEveryCommand :
    ({ F := 1, SW := 3, BMAX := 1, BW := 1 } : Params).legal ∧ Config.defaults.legal ∧
      General.Inv ({ General.Block.reset small with enc := some { bits := 3, prev := 1792 } } : General.Block small) := by
  refine ⟨by decide, by decide, by decide, ?_, fun v h => by cases h⟩
  intro v h
  cases h
  decide

/-- Both ends of the depths, the smallest and the largest code. -/
theorem witness_SampleAndCodeCommandsReportTheirValuesExactly :
    small.legal ∧ (1 ≤ 1 ∧ 1 ≤ small.BMAX) ∧ (1 ≤ 8 ∧ 8 ≤ small.BMAX) ∧ 0 ≤ 2 ^ 8 - 1 ∧ 255 ≤ 2 ^ 8 - 1 := by decide

/-- A reserved operand bit of DECN, and a word short of it. -/
theorem witness_GeneralIllegalWordsAreTheReservedOnes :
    (General.step (General.Block.reset small) (7#4 ++ (256 : BitVec small.SW))).2.st = 1 ∧
      (General.step (General.Block.reset small) (7#4 ++ (255 : BitVec small.SW))).2.st = 4 := by decide

/-- Unequal lengths, empty input, no distortion, distortion of silence (U6), and D0's scenario 4. -/
theorem witness_EvaluatorMeasuresDistortionInDecibels :
    ([1] : List ℚ).length ≠ [1, 1].length ∧ ([] : List ℚ) = [] ∧ ([1, 1, 1] : List ℚ).length = [1, 1, -1].length ∧
      ([1, 1, 1] : List ℚ) ≠ [] ∧ ([1, 1, 1] : List ℚ) ≠ [1, 1, -1] ∧ meanSquare [1, 1, 1] ≠ 0 ∧
      meanSquare [0] = 0 ∧ ([0] : List ℚ) ≠ [1] := by decide +kernel

end Sys2Proof.Tests
end

/-! SUPPORT. The rules of the general block (Machine/General.lean), one per command: the invariant of R31 is kept. -/

namespace Sys2Proof.General

open Sys2Proof.Machine

variable {p : Params} {s : Block p}

theorem streamOk_none : streamOk (none : Option (Stream p)) := fun _ h => by cases h

/-- A stream whose PREV carries a value within [-1, 1] at a legal depth meets (I2), (I3): what a FIRST command opens and
what a NEXT command leaves. -/
theorem streamOk_of_mem (hp : p.legal) {c : BitVec p.BW} (h1 : 1 ≤ c.toNat) (h : c.toNat ≤ p.BMAX) {v : ℚ}
    (hv : -1 ≤ v ∧ v ≤ 1) : streamOk (some { bits := c, prev := toPort p c.toNat v }) := by
  intro u hu
  cases hu
  exact ⟨h1, h, toPort_mem hp h1 h hv.1 hv.2⟩

/-- `clip(·, -1, 1)` is within [-1, 1] (R8). -/
theorem clip_one_mem (v : ℚ) : -1 ≤ clip v (-1) 1 ∧ clip v (-1) 1 ≤ 1 :=
  ⟨le_clip (by norm_num), clip_le (by norm_num)⟩

/-- A configured depth is at least 1 (R21). -/
theorem one_le_of_ne_zero {n : Nat} {c : BitVec n} (h : c ≠ 0) : 1 ≤ c.toNat :=
  Nat.one_le_iff_ne_zero.2 fun h0 => h (BitVec.eq_of_toNat_eq h0)

theorem streamOk_openStream (hp : p.legal) {c : BitVec p.BW} (h0 : c ≠ 0) (h : c.toNat ≤ p.BMAX) (x : BitVec p.SW) :
    streamOk (some (openStream c x)) :=
  streamOk_of_mem hp (one_le_of_ne_zero h0) h (clip_one_mem _)

theorem inv_reset (p : Params) : Inv (Block.reset p) := ⟨Nat.zero_le _, streamOk_none, streamOk_none⟩

/-- Fault entry writes no register that the invariant speaks of (R207). -/
theorem inv_raise (c : ErrCode) (h : Inv s) : Inv (raise c s).1 := h

theorem inv_cfg (op : BitVec p.SW) (h : Inv s) : Inv (cfg op s).1 := by
  unfold cfg
  split
  · exact inv_raise _ h
  split
  · exact inv_raise _ h
  next hop =>
    obtain ⟨-, henc, hdec⟩ := h
    refine ⟨?_, henc, hdec⟩
    have hmod : (BitVec.ofNat p.BW op.toNat).toNat ≤ op.toNat := by
      rw [BitVec.toNat_ofNat]; exact Nat.mod_le _ _
    exact hmod.trans (by omega)

theorem inv_qnt (x : BitVec p.SW) (h : Inv s) : Inv (qnt x s).1 := by
  unfold qnt
  split
  · exact inv_raise _ h
  · exact h

theorem inv_qnt1 (x : BitVec p.SW) (h : Inv s) : Inv (qnt1 x s).1 := by
  unfold qnt1
  split <;> exact h

theorem inv_encf (hp : p.legal) (x : BitVec p.SW) (h : Inv s) : Inv (encf x s).1 := by
  unfold encf
  split
  · exact inv_raise _ h
  next h0 =>
    obtain ⟨hcfg, -, hdec⟩ := h
    exact ⟨hcfg, streamOk_openStream hp h0 hcfg x, hdec⟩

theorem inv_decf (hp : p.legal) (x : BitVec p.SW) (h : Inv s) : Inv (decf x s).1 := by
  unfold decf
  split
  · exact inv_raise _ h
  next h0 =>
    obtain ⟨hcfg, henc, -⟩ := h
    exact ⟨hcfg, henc, streamOk_openStream hp h0 hcfg x⟩

theorem inv_encn (hp : p.legal) (x : BitVec p.SW) (h : Inv s) : Inv (encn x s).1 := by
  unfold encn
  split
  · exact inv_raise _ h
  next u hu =>
    obtain ⟨hcfg, henc, hdec⟩ := h
    obtain ⟨h1, h2, -⟩ := henc u hu
    exact ⟨hcfg, streamOk_of_mem hp h1 h2 (clip_one_mem _), hdec⟩

theorem inv_decn (hp : p.legal) (op : BitVec p.SW) (h : Inv s) : Inv (decn op s).1 := by
  unfold decn
  split
  · exact inv_raise _ h
  split
  · exact inv_raise _ h
  next u hu =>
    split
    · exact inv_raise _ h
    · obtain ⟨hcfg, henc, hdec⟩ := h
      obtain ⟨h1, h2, -⟩ := hdec u hu
      exact ⟨hcfg, henc, streamOk_of_mem hp h1 h2 (clip_one_mem _)⟩

/-- A unit that END closes or leaves alone (R161). -/
theorem streamOk_closed_if {u : Option (Stream p)} (c : Bool) (h : streamOk u) :
    streamOk (if c then none else u) := by
  cases c
  · exact h
  · exact streamOk_none

theorem inv_endUnits (op : BitVec p.SW) (h : Inv s) : Inv (endUnits op s).1 := by
  unfold endUnits
  split
  · exact inv_raise _ h
  · obtain ⟨hcfg, henc, hdec⟩ := h
    exact ⟨hcfg, streamOk_closed_if _ henc, streamOk_closed_if _ hdec⟩

theorem inv_stat (op : BitVec p.SW) (h : Inv s) : Inv (stat op s).1 := by
  unfold stat
  split
  · exact inv_raise _ h
  · exact h

/-- Every command keeps (I1), (I2) and (I3) of R31, by the word's opcode. -/
theorem inv_step (hp : p.legal) (w : BitVec p.CW) (h : Inv s) : Inv (step s w).1 := by
  unfold step
  dsimp only
  split
  · exact inv_cfg _ h
  · exact inv_qnt _ h
  · exact inv_qnt1 _ h
  · exact inv_encf hp _ h
  · exact inv_encn hp _ h
  · exact inv_decf hp _ h
  · exact inv_decn hp _ h
  · exact inv_endUnits _ h
  · exact inv_stat _ h
  · exact inv_raise _ h

end Sys2Proof.General

namespace Sys2Proof

/-- Settles O56: the reset block has no stream and depth 0, and `inv_step` is the step lemma. -/
theorem generalInvariantIsKeptByEveryCommand : Obligations.GeneralInvariantIsKeptByEveryCommand := by
  unfold Obligations.GeneralInvariantIsKeptByEveryCommand
  exact ⟨General.inv_reset, fun _ hp _ w h => General.inv_step hp w h⟩

end Sys2Proof

/-! SUPPORT. What the ports of the general block carry exactly, under R5's constraints (spec/00_scope.md R5, R7, R12): a
whole number of `1 / S(b)` that the width holds. -/

namespace Sys2Proof.General

open Sys2Proof.Machine

variable {p : Params} {b : Nat}

/-- A whole number of `1 / S(b)` within the port's signed range is read back (R12). -/
theorem portCarries_of_int (hp : p.legal) (h1 : 1 ≤ b) {v : ℚ} {z : Int} (hz : (z : ℚ) = v * scale p b)
    (hlo : -2 ^ (p.PW - 1) ≤ z) (hhi : z < 2 ^ (p.PW - 1)) : portCarries p b v := by
  obtain ⟨-, -, -, -, hB, -⟩ := hp
  have hS := scaleQ_pos p h1
  unfold portCarries portValue
  rw [toPort_of_int hz, toInt_ofInt_of_mem (by unfold Params.PW; omega) hlo hhi, hz]
  field_simp

/-- A value that is a whole number of `1 / S(b)` is carried once it is clipped to [-1, 1]. -/
theorem portCarries_clip (hp : p.legal) (h1 : 1 ≤ b) (h : b ≤ p.BMAX) {v : ℚ} {z : Int}
    (hz : (z : ℚ) = v * scale p b) : portCarries p b (clip v (-1) 1) := by
  have hS := one_le_scale p h1
  have hS' := scaleQ_pos p h1
  have h2S := two_scale_lt hp h
  have hv : (z : ℚ) / scale p b = v := by rw [hz]; field_simp
  have key := clipInt_cast z (c := 1) (d := scale p b) (by omega)
  rw [one_mul, Int.cast_one, hv] at key
  have hlo : -scale p b ≤ clipInt z (-scale p b) (scale p b) := le_clipInt (by omega)
  have hhi : clipInt z (-scale p b) (scale p b) ≤ scale p b := clipInt_le (by omega)
  exact portCarries_of_int hp h1 key (by omega) (by omega)

/-- R7: a sample's integer is within the `G` integer bits' range, `2^F` times over. -/
theorem sample_bounds (hp : p.legal) (x : BitVec p.SW) :
    -(2 ^ (p.G - 1) * 2 ^ p.F) ≤ x.toInt ∧ x.toInt < 2 ^ (p.G - 1) * 2 ^ p.F := by
  obtain ⟨-, hSW, -⟩ := hp
  have e : p.SW - 1 = p.G - 1 + p.F := by unfold Params.G; omega
  rw [← pow_add, ← e]
  exact ⟨x.le_toInt, x.toInt_lt⟩

/-- The value of a sample word is within `±2^(G-1)` (R7). -/
theorem sampleValue_bounds (hp : p.legal) (x : BitVec p.SW) :
    -(2 ^ (p.G - 1) : ℚ) ≤ sampleValue p x ∧ sampleValue p x ≤ 2 ^ (p.G - 1) := by
  obtain ⟨hlo, hhi⟩ := sample_bounds hp x
  have hF : (0 : ℚ) < 2 ^ p.F := by positivity
  unfold sampleValue
  rw [le_div_iff₀ hF, div_le_iff₀ hF, neg_mul]
  exact ⟨by exact_mod_cast hlo, by exact_mod_cast hhi.le⟩

/-- R11: the nearest level is within half a spacing, in the integer terms `|2k - M - v·M| ≤ 1`. -/
theorem Qidx_near (b : Nat) (v : ℚ) :
    v * levelMax b - 1 ≤ 2 * Qidx b v - levelMax b ∧ 2 * (Qidx b v : ℚ) - levelMax b ≤ v * levelMax b + 1 := by
  have hle := Int.floor_le ((v + 1) / 2 * levelMax b + 1 / 2)
  have hlt := Int.lt_floor_add_one ((v + 1) / 2 * levelMax b + 1 / 2)
  unfold Qidx rnd
  constructor <;> linarith

/-- R101 for all parameters: the level of a sample is within `±(2^(G-1)·M + 1)`, over `M`. -/
theorem Qidx_sample_bounds (hp : p.legal) (h1 : 1 ≤ b) (x : BitVec p.SW) :
    -(2 ^ (p.G - 1) * levelMax b + 1) ≤ 2 * Qidx b (sampleValue p x) - levelMax b ∧
      2 * Qidx b (sampleValue p x) - levelMax b ≤ 2 ^ (p.G - 1) * levelMax b + 1 := by
  obtain ⟨hlo, hhi⟩ := sampleValue_bounds hp x
  obtain ⟨hklo, hkhi⟩ := Qidx_near b (sampleValue p x)
  have hM := levelMaxQ_pos h1
  have hlo' : (-(2 ^ (p.G - 1) * levelMax b + 1) : ℚ) ≤ 2 * Qidx b (sampleValue p x) - levelMax b := by nlinarith
  have hhi' : (2 * Qidx b (sampleValue p x) - levelMax b : ℚ) ≤ 2 ^ (p.G - 1) * levelMax b + 1 := by nlinarith
  exact ⟨by exact_mod_cast hlo', by exact_mod_cast hhi'⟩

/-- R5: `G ≥ 2`, so the integer bits reach 2. -/
theorem two_le_pow_G (hp : p.legal) : (2 : Int) ≤ 2 ^ (p.G - 1) := by
  obtain ⟨-, -, -, hG, -⟩ := hp
  exact le_self_pow₀ (by norm_num) (by omega)

/-- The bound of `Qidx_sample_bounds` is within `G - 1 + BMAX` bits. -/
theorem level_bound_lt (hp : p.legal) (h : b ≤ p.BMAX) :
    2 ^ (p.G - 1) * levelMax b + 1 < 2 ^ (p.G - 1 + p.BMAX) := by
  have hH := two_le_pow_G hp
  have hM := levelMax_lt_pow h
  rw [pow_add]
  nlinarith

/-- QNT's index fits the `code` port (R5: `KW = BMAX + G`). -/
theorem codeCarries_Qidx (hp : p.legal) (h1 : 1 ≤ b) (h : b ≤ p.BMAX) (x : BitVec p.SW) :
    codeCarries p (Qidx b (sampleValue p x)) := by
  obtain ⟨hlo, hhi⟩ := Qidx_sample_bounds hp h1 x
  have hH := two_le_pow_G hp
  have hbound := level_bound_lt hp h
  have hM := one_le_levelMax h1
  have hle : levelMax b ≤ 2 ^ (p.G - 1) * levelMax b := by nlinarith
  obtain ⟨-, -, -, hG, -⟩ := hp
  have e : p.KW - 1 = p.G - 1 + p.BMAX := by unfold Params.KW; omega
  exact toInt_ofInt_of_mem (by unfold Params.KW; omega) (by rw [e]; omega) (by rw [e]; omega)

/-- QNT's level fits the `val` port (R5: `PW ≥ F + BMAX + G`). -/
theorem portCarries_Q (hp : p.legal) (h1 : 1 ≤ b) (h : b ≤ p.BMAX) (x : BitVec p.SW) :
    portCarries p b (Q b (sampleValue p x)) := by
  obtain ⟨hlo, hhi⟩ := Qidx_sample_bounds hp h1 x
  have hbound := level_bound_lt hp h
  have hF : (0 : Int) < 2 ^ p.F := by positivity
  have e : p.PW - 1 = p.G - 1 + p.BMAX + p.F := by
    obtain ⟨-, hSW, -, hG, -⟩ := hp
    unfold Params.PW Params.G at *; omega
  refine portCarries_of_int hp h1 (lvl_num p h1 _) ?_ ?_ <;> rw [e, pow_add] <;> nlinarith

/-- A clipped sample fits its port. -/
theorem portCarries_first (hp : p.legal) (h1 : 1 ≤ b) (h : b ≤ p.BMAX) (x : BitVec p.SW) :
    portCarries p b (clip (sampleValue p x) (-1) 1) := portCarries_clip hp h1 h (sample_num p b x)

/-- R123: a residual's numerator. -/
theorem residual_num (p : Params) (h1 : 1 ≤ b) (k : Int) :
    (((2 * k - levelMax b) * 2 ^ p.F * 2 : Int) : ℚ) = lvl b k * 2 * scale p b := by
  have := lvl_num p h1 k
  push_cast at this ⊢
  linarith

/-- The residual of an in-range code fits the `res` port, which holds `±2·S(b)`. -/
theorem portCarries_dq (hp : p.legal) (h1 : 1 ≤ b) (h : b ≤ p.BMAX) {k : Int} (hk : 0 ≤ k) (hk' : k ≤ levelMax b)
    (prev : ℚ) : portCarries p b (decodeTransition b prev k).dq := by
  have h2S := two_scale_lt hp h
  have hF : (0 : Int) < 2 ^ p.F := by positivity
  unfold scale at h2S
  refine portCarries_of_int hp h1 (residual_num p h1 k) ?_ ?_ <;> nlinarith

/-- The reconstruction from any content of PREV fits its port. -/
theorem portCarries_recon (hp : p.legal) (h1 : 1 ≤ b) (h : b ≤ p.BMAX) (k : Int) (prev : BitVec p.PW) :
    portCarries p b (decodeTransition b (portValue p b prev) k).recon := by
  have hS := scaleQ_pos p h1
  have hprev : portValue p b prev * scale p b = prev.toInt := by unfold portValue; field_simp
  refine portCarries_clip hp h1 h (z := prev.toInt + (2 * k - levelMax b) * 2 ^ p.F * 2) ?_
  rw [Int.cast_add, residual_num p h1, add_mul, hprev]

/-- An index of a legal depth fits the `code` port. -/
theorem codeCarries_of_mem (hp : p.legal) (h : b ≤ p.BMAX) {k : Int} (hk : 0 ≤ k) (hk' : k ≤ levelMax b) :
    codeCarries p k := by
  obtain ⟨-, -, -, hG, hB, -⟩ := hp
  have hM := levelMax_lt_pow h
  have hpow : (2 : Int) ^ p.BMAX ≤ 2 ^ (p.KW - 1) :=
    pow_le_pow_right₀ (by norm_num) (by unfold Params.KW; omega)
  exact toInt_ofInt_of_mem (by unfold Params.KW; omega) (by omega) (by omega)

end Sys2Proof.General

namespace Sys2Proof

open Machine General in
/-- Settles O57: QNT's level is within `±(2^(G-1)·M + 1) / M`, every other value is clipped or is a level of an in-range
code, and R5's widths hold each. -/
theorem sampleAndCodeCommandsReportTheirValuesExactly :
    Obligations.SampleAndCodeCommandsReportTheirValuesExactly := by
  unfold Obligations.SampleAndCodeCommandsReportTheirValuesExactly
  intro p hp b h1 h
  refine ⟨fun x => ⟨codeCarries_Qidx hp h1 h x, portCarries_Q hp h1 h x, portCarries_first hp h1 h x⟩, ?_, ?_⟩
  · rintro x prev e rfl
    obtain ⟨hlo, hhi⟩ := clip_one_mem ((General.sampleValue p x - General.portValue p b prev) / 2)
    obtain ⟨hk, hk'⟩ := Qidx_mem h1 hlo hhi
    exact ⟨codeCarries_of_mem hp h hk hk', portCarries_dq hp h1 h hk hk' _, portCarries_recon hp h1 h _ prev⟩
  · rintro k prev e hk rfl
    have hk' : (k : Int) ≤ levelMax b := by
      have : 1 ≤ 2 ^ b := Nat.one_le_two_pow
      unfold levelMax; zify [this] at hk; exact hk
    exact ⟨portCarries_dq hp h1 h (Int.natCast_nonneg k) hk' _, portCarries_recon hp h1 h k prev⟩

/-- Settles O54: closed arithmetic on the four defaults. -/
theorem defaultParametersAreLegal : Obligations.DefaultParametersAreLegal := by
  unfold Obligations.DefaultParametersAreLegal
  decide

end Sys2Proof

/-! SUPPORT. The machine beside the general block at the defaults (spec/00_scope.md R5, R12; 20_memory.md R52): the
responses and streams in the rational terms of Machine/General.lean, then one commuting lemma per command. -/

namespace Sys2Proof.General

open Sys2Proof.Machine

/-- A command's outcome on `s` agrees with what the general block gives: one response is added, and the registers and that
response are the general block's. -/
def Agrees (s : State) (o : Host.Outcome State Fault Refusal) (g : Block Config.defaults × Answer Config.defaults) :
    Prop :=
  ∃ t r, o = .next t ∧ t.responses = s.responses ++ [r] ∧ g = (blockOf t, answerOf r)

variable {s : State}

theorem agrees_raise (c : ErrCode) (s : State) : Agrees s (.next (raiseFault c s)) (raise c (blockOf s)) :=
  ⟨_, _, rfl, rfl, raise_blockOf c s⟩

theorem agrees_respond {t : State} {r : Response} {g : Block Config.defaults × Answer Config.defaults}
    (ht : t.responses = s.responses) (hb : g.1 = blockOf t) (ha : g.2 = answerOf r) :
    Agrees s (.next (respond r t)) g :=
  ⟨respond r t, r, rfl, by rw [respond_responses, ht], Prod.ext hb ha⟩

/-! ### Reserved operand bits (R71, R73(b)) -/

section Reserved

variable {p : Params} {op : BitVec p.SW} (b : Block p)

theorem cfg_reserved (h : 2 ^ p.BW ≤ op.toNat) : cfg op b = raise .illegal b := if_pos ((reservedSet_iff _ op).2 h)

theorem cfg_unreserved (h : op.toNat < 2 ^ p.BW) : cfg op b =
    if op.toNat < 1 ∨ op.toNat > p.BMAX then raise .param b
    else ({ b with cfgBits := BitVec.ofNat _ op.toNat }, {}) :=
  if_neg fun hr => not_lt.2 ((reservedSet_iff _ op).1 hr) h

theorem endUnits_reserved (h : 2 ^ 2 ≤ op.toNat) : endUnits op b = raise .illegal b :=
  if_pos ((reservedSet_iff _ op).2 h)

theorem endUnits_unreserved (h : op.toNat < 2 ^ 2) : endUnits op b =
    ({ b with enc := if op.getLsbD 0 then none else b.enc, dec := if op.getLsbD 1 then none else b.dec }, {}) :=
  if_neg fun hr => not_lt.2 ((reservedSet_iff _ op).1 hr) h

theorem stat_reserved (h : 2 ^ 0 ≤ op.toNat) : stat op b = raise .illegal b := if_pos ((reservedSet_iff _ op).2 h)

theorem stat_unreserved (h : op.toNat < 2 ^ 0) : stat op b = (b, { val := (image b).setWidth _ }) :=
  if_neg fun hr => not_lt.2 ((reservedSet_iff _ op).1 hr) h

end Reserved

/-! ### Values -/

theorem blockOf_cfgBits (s : State) : (blockOf s).cfgBits = s.cfgBits := rfl

/-- QNT's response in rational terms (R100). -/
theorem answerOf_quantResponse {c : Depth} (h : c ≠ 0) (x : Sample) :
    answerOf (quantResponse c x) =
      { cv := true
        b := c
        code := toCode Config.defaults (Qidx c.toNat (sampleValue Config.defaults x))
        val := toPort Config.defaults c.toNat (Q c.toNat (sampleValue Config.defaults x)) } := by
  have hval : toPort Config.defaults c.toNat (Q c.toNat (sampleValue Config.defaults x)) =
      Machine.toPort (levelNum c.toNat (quantIndex c.toNat (sampleInt x))) := by
    rw [quantIndex_eq_Qidx]
    exact toPort_defaults (levelNum_cast (Machine.one_le_of_ne_zero h) _)
  rw [hval]
  simp only [answerOf, quantResponse, quantIndex_eq_Qidx]
  rfl

/-- The clipped first sample on its port (R120, R140). -/
theorem toPort_first {c : Depth} (h : c ≠ 0) (x : Sample) :
    toPort Config.defaults c.toNat (clip (sampleValue Config.defaults x) (-1) 1) =
      Machine.toPort (firstNum c.toNat (sampleInt x)) :=
  toPort_defaults (firstNum_cast (Machine.one_le_of_ne_zero h) x)

/-- The stream a FIRST command opens (R120, R140). -/
theorem streamOf_openStream {c : Depth} (h : c ≠ 0) (x : Sample) :
    streamOf (Machine.openStream c x) = some (openStream (p := Config.defaults) c x) := by
  rw [streamOf_open rfl, openStream, toPort_first h]
  rfl

/-- ENCF's effect on the registers (R120). -/
theorem blockOf_openEncoder (s : State) {c : Depth} (h : c ≠ 0) (x : Sample) :
    blockOf { s with enc := Machine.openStream c x } = { blockOf s with enc := some (openStream c x) } := by
  rw [← streamOf_openStream h]
  rfl

/-- DECF's effect on the registers (R140). -/
theorem blockOf_openDecoder (s : State) {c : Depth} (h : c ≠ 0) (x : Sample) :
    blockOf { s with dec := Machine.openStream c x } = { blockOf s with dec := some (openStream c x) } := by
  rw [← streamOf_openStream h]
  rfl

/-- A FIRST command's response (R120, R140). -/
theorem answerOf_firstResponse {c : Depth} (h : c ≠ 0) (x : Sample) :
    answerOf (firstResponse c x) = { b := c, val := (openStream (p := Config.defaults) c x).prev } := by
  rw [openStream, toPort_first h]
  rfl

/-- Step 4 on the `res` port (R121, R141). -/
theorem toPort_dq {b : Nat} (h1 : 1 ≤ b) (prev : ℚ) (k : Int) :
    toPort Config.defaults b (decodeTransition b prev k).dq = Machine.toPort (residualNum b k) :=
  toPort_defaults (residualNum_cast h1 k)

/-- Step 5 on the `val` port and in PREV (R121, R141). -/
theorem toPort_recon {b : Nat} (h1 : 1 ≤ b) (prev : PortWord) (k : Int) :
    toPort Config.defaults b (decodeTransition b (portValue Config.defaults b prev) k).recon =
      Machine.toPort (reconNum b prev.toInt (residualNum b k)) :=
  toPort_defaults (reconNum_cast h1 prev.toInt k)

/-- Steps 1 to 3 of ENCN choose the machine's index (R121, R123). -/
theorem encodeStep_eq {u : StreamRegs} (h1 : 1 ≤ u.bits.toNat) (x : Sample) :
    encodeStep (p := Config.defaults) { bits := u.bits, prev := u.prev } x =
      decodeTransition u.bits.toNat (portValue Config.defaults u.bits.toNat u.prev) (encodeIndex u x) := by
  rw [encodeIndex, residualIndex_eq_Qidx h1]
  rfl

/-- The encoder after END: forgotten when selected, else as it was (R161). -/
theorem streamOf_closeEncoder (e : Bool) (s : State) :
    streamOf (closeEncoder e s).enc = if e then none else streamOf s.enc := by
  cases e
  · rw [closeEncoder_enc_of_kept s false (.inl rfl)]; rfl
  · exact streamOf_closed (by simp)

/-- The decoder after END: forgotten when selected, else as it was (R161). -/
theorem streamOf_closeDecoder (d : Bool) (s : State) :
    streamOf (closeDecoder d s).dec = if d then none else streamOf s.dec := by
  cases d
  · rw [closeDecoder_dec_of_kept s false (.inl rfl)]; rfl
  · exact streamOf_closed (by simp)

/-- END's effect on the registers (R161). -/
theorem blockOf_close (e d : Bool) (s : State) :
    blockOf (closeDecoder d (closeEncoder e s)) =
      { blockOf s with enc := if e then none else streamOf s.enc, dec := if d then none else streamOf s.dec } := by
  simp only [blockOf, closeDecoder_cfgBits, closeDecoder_err, closeDecoder_enc, closeEncoder_cfgBits, closeEncoder_err,
    streamOf_closeDecoder, closeEncoder_dec, streamOf_closeEncoder]

/-- The status image (R163). -/
theorem image_blockOf (s : State) : image (blockOf s) = statusImage s := by
  simp only [image, statusImage, blockOf, shownDepth_streamOf, isSome_streamOf]

/-! ### Commands -/

theorem agrees_cfg (s : State) {op : Operand} (hop : op.toNat < 32) :
    Agrees s (exec (.cfg op.toNat) s) (cfg (p := Config.defaults) op (blockOf s)) := by
  rw [cfg_unreserved _ hop]
  by_cases h : op.toNat < 1 ∨ op.toNat > Config.BMAX
  · rw [exec_cfg_refused s h, if_pos h]
    exact agrees_raise _ s
  · rw [exec_cfg_legal s h, if_neg h]
    exact agrees_respond rfl rfl rfl

theorem agrees_qnt (s : State) (x : Sample) : Agrees s (exec (.qnt x) s) (qnt (p := Config.defaults) x (blockOf s)) := by
  rw [qnt, blockOf_cfgBits]
  by_cases h : s.cfgBits = 0
  · rw [exec_qnt_unconfigured x h, if_pos h]
    exact agrees_raise _ s
  · rw [exec_qnt_configured x h, if_neg h]
    exact agrees_respond rfl rfl (answerOf_quantResponse h x).symm

theorem agrees_qnt1 (s : State) (x : Sample) :
    Agrees s (exec (.qnt1 x) s) (qnt1 (p := Config.defaults) x (blockOf s)) := by
  have hpos : toPort Config.defaults 1 1 = Machine.toPort unity :=
    toPort_defaults (by norm_num [numOf, scale_eq, levelMax])
  have hneg : toPort Config.defaults 1 (-1) = Machine.toPort (-unity) :=
    toPort_defaults (by norm_num [numOf, scale_eq, levelMax])
  rw [exec_qnt1, qnt1, thresholdResponse, hpos, hneg]
  by_cases h : 0 ≤ x.toInt
  · rw [if_pos h, if_pos (show 0 ≤ sampleInt x from h)]
    exact agrees_respond rfl rfl rfl
  · rw [if_neg h, if_neg (show ¬ 0 ≤ sampleInt x from h)]
    exact agrees_respond rfl rfl rfl

theorem agrees_encf (s : State) (x : Sample) :
    Agrees s (exec (.encf x) s) (encf (p := Config.defaults) x (blockOf s)) := by
  rw [encf, blockOf_cfgBits]
  by_cases h : s.cfgBits = 0
  · rw [exec_encf_unconfigured x h, if_pos h]
    exact agrees_raise _ s
  · rw [exec_encf_configured x h, if_neg h]
    exact agrees_respond rfl (blockOf_openEncoder s h x).symm (answerOf_firstResponse h x).symm

theorem agrees_decf (s : State) (x : Sample) :
    Agrees s (exec (.decf x) s) (decf (p := Config.defaults) x (blockOf s)) := by
  rw [decf, blockOf_cfgBits]
  by_cases h : s.cfgBits = 0
  · rw [exec_decf_unconfigured x h, if_pos h]
    exact agrees_raise _ s
  · rw [exec_decf_configured x h, if_neg h]
    exact agrees_respond rfl (blockOf_openDecoder s h x).symm (answerOf_firstResponse h x).symm

theorem agrees_encn (s : State) (hs : Machine.streamOk s.enc) (x : Sample) :
    Agrees s (exec (.encn x) s) (encn (p := Config.defaults) x (blockOf s)) := by
  cases h : s.enc.active with
  | false =>
    have he : (blockOf s).enc = none := streamOf_closed h
    rw [exec_encn_closed x h, encn, he]
    exact agrees_raise _ s
  | true =>
    obtain ⟨h1, -⟩ := hs h
    have he : (blockOf s).enc = some { bits := s.enc.bits, prev := s.enc.prev } := streamOf_open h
    rw [exec_encn_open x h, encn, he]
    dsimp only
    rw [encodeStep_eq h1, toPort_dq h1, toPort_recon h1]
    exact ⟨_, _, rfl, rfl, rfl⟩

theorem agrees_decn (s : State) (hs : Machine.streamOk s.dec) (op : Operand) :
    Agrees s (exec (.decn op.toNat) s) (decn (p := Config.defaults) op (blockOf s)) := by
  have hr : ¬ reservedSet (p := Config.defaults) Config.defaults.BMAX op = true := by
    rw [reservedSet_iff]; exact not_le.2 op.isLt
  rw [decn, if_neg hr]
  cases h : s.dec.active with
  | false =>
    have hd : (blockOf s).dec = none := streamOf_closed h
    rw [exec_decn_closed _ h, hd]
    exact agrees_raise _ s
  | true =>
    obtain ⟨h1, -⟩ := hs h
    have hd : (blockOf s).dec = some { bits := s.dec.bits, prev := s.dec.prev } := streamOf_open h
    rw [hd]
    dsimp only
    by_cases hk : (op.toNat : Int) > levelMax s.dec.bits.toNat
    · rw [exec_decn_outOfRange _ h hk, if_pos hk]
      exact agrees_raise _ s
    · rw [exec_decn_open _ h (not_lt.1 hk), if_neg hk, decodeStep, toPort_dq h1, toPort_recon h1]
      exact ⟨_, _, rfl, rfl, rfl⟩

theorem agrees_end (s : State) {op : Operand} (hop : op.toNat < 4) :
    Agrees s (exec (.endUnits (op.getLsbD 0) (op.getLsbD 1)) s) (endUnits (p := Config.defaults) op (blockOf s)) := by
  rw [exec_end, endUnits_unreserved _ hop]
  exact agrees_respond (by simp) (blockOf_close _ _ s).symm rfl

theorem agrees_stat (s : State) {op : Operand} (hop : op.toNat < 1) :
    Agrees s (exec .stat s) (stat (p := Config.defaults) op (blockOf s)) := by
  rw [exec_stat, stat_unreserved _ hop, image_blockOf]
  exact agrees_respond rfl rfl rfl

/-! ### Words -/

section Presented

variable {w : CmdWord} {rest : List HostInput} (hin : s.inputs = .command w :: rest)
include hin

/-- A decoded word agrees when its command does: the inputs are no register of the general block. -/
theorem agrees_step_decoded {i : Instr} {g : Block Config.defaults × Answer Config.defaults} (hd : decode w = .ok i)
    (h : Agrees { s with inputs := rest } (exec i { s with inputs := rest }) g) : Agrees s (Machine.step s) g := by
  rw [step_decoded hin hd]
  exact h

theorem agrees_step_illegal {e : DecodeError} {g : Block Config.defaults × Answer Config.defaults}
    (hd : decode w = .error e) (hg : g = raise .illegal (blockOf s)) : Agrees s (Machine.step s) g := by
  rw [step_illegal hin hd, hg]
  exact agrees_raise .illegal { s with inputs := rest }

end Presented

/-- The commuting square of one step, by opcode. -/
theorem agrees_step {opc : Opcode} {op : Operand} {rest : List HostInput} (hs : Machine.Inv s)
    (hin : s.inputs = .command (opc ++ op) :: rest) :
    Agrees s (Machine.step s) (step (p := Config.defaults) (blockOf s) (opc ++ op)) := by
  obtain ⟨-, henc, hdec⟩ := hs
  by_cases hres : opc = 0 ∨ 10 ≤ opc.toNat
  · exact agrees_step_illegal hin (decode_reserved_word hres op) (step_reserved (p := Config.defaults) _ hres op)
  rw [step_append]
  rcases opcode_cases opc with rfl | rfl | rfl | rfl | rfl | rfl | rfl | rfl | rfl | h
  · by_cases hop : op.toNat < 32
    · exact agrees_step_decoded hin (by rw [decode_cfg_word, if_pos hop]) (agrees_cfg _ hop)
    · exact agrees_step_illegal hin (by rw [decode_cfg_word, if_neg hop]) (cfg_reserved _ (not_lt.1 hop))
  · exact agrees_step_decoded hin (decode_qnt_word op) (agrees_qnt _ op)
  · exact agrees_step_decoded hin (decode_qnt1_word op) (agrees_qnt1 _ op)
  · exact agrees_step_decoded hin (decode_encf_word op) (agrees_encf _ op)
  · exact agrees_step_decoded hin (decode_encn_word op) (agrees_encn { s with inputs := rest } henc op)
  · exact agrees_step_decoded hin (decode_decf_word op) (agrees_decf _ op)
  · exact agrees_step_decoded hin (decode_decn_word op) (agrees_decn { s with inputs := rest } hdec op)
  · by_cases hop : op.toNat < 4
    · exact agrees_step_decoded hin (by rw [decode_end_word, if_pos hop]) (agrees_end _ hop)
    · exact agrees_step_illegal hin (by rw [decode_end_word, if_neg hop]) (endUnits_reserved _ (not_lt.1 hop))
  · by_cases hop : op.toNat < 1
    · exact agrees_step_decoded hin (by rw [decode_stat_word, if_pos hop]) (agrees_stat _ hop)
    · exact agrees_step_illegal hin (by rw [decode_stat_word, if_neg hop]) (stat_reserved _ (not_lt.1 hop))
  · exact absurd h hres

end Sys2Proof.General

namespace Sys2Proof

/-- Settles O55: `agrees_step`, with the word taken apart into its opcode and operand. -/
theorem machineIsTheGeneralBlockAtDefaults : Obligations.MachineIsTheGeneralBlockAtDefaults := by
  unfold Obligations.MachineIsTheGeneralBlockAtDefaults
  intro s w rest hs hin
  rw [← fields_append w] at hin ⊢
  exact General.agrees_step hs hin

end Sys2Proof

/-! SUPPORT. What a command and a step do to the registers (spec/10_state.md R20 to R31), one case per effect: the invariant
of R31, the sticky flags and the configured depth follow from it. -/

namespace Sys2Proof.Machine

/-- What a command can do to the state, whatever it answers: each case is an effect the rules of the commands name. -/
inductive CommandEffect (s : State) : State → Prop where
  /-- A fault (R207). -/
  | fault (c : ErrCode) : CommandEffect s (raiseFault c s)
  /-- An answer and no register written (R100, R104, R162). -/
  | answer (r : Response) : CommandEffect s (respond r s)
  /-- A depth is configured (R160). -/
  | configure (r : Response) {bits : Nat} (h : 1 ≤ bits) (h' : bits ≤ Config.BMAX) :
      CommandEffect s (respond r { s with cfgBits := BitVec.ofNat _ bits })
  /-- The encoder's stream is opened (R120). -/
  | openEncoder (r : Response) (x : Sample) (h : s.cfgBits ≠ 0) :
      CommandEffect s (respond r { s with enc := openStream s.cfgBits x })
  /-- The encoder's stream is advanced (R121). -/
  | advanceEncoder (r : Response) (k : Int) (h : s.enc.active = true) :
      CommandEffect s (respond r { s with enc := advanceStream s.enc k })
  /-- The decoder's stream is opened (R140). -/
  | openDecoder (r : Response) (x : Sample) (h : s.cfgBits ≠ 0) :
      CommandEffect s (respond r { s with dec := openStream s.cfgBits x })
  /-- The decoder's stream is advanced (R141). -/
  | advanceDecoder (r : Response) (k : Int) (h : s.dec.active = true) :
      CommandEffect s (respond r { s with dec := advanceStream s.dec k })
  /-- Selected units are closed (R161). -/
  | close (r : Response) (e d : Bool) : CommandEffect s (respond r (closeDecoder d (closeEncoder e s)))

/-- ENCN on an open encoder in terms of the stream it advances (R121). -/
theorem exec_encn_advances (x : Sample) {s : State} (h : s.enc.active = true) :
    exec (.encn x) s =
      .next (respond (encodeResponse s.enc x) { s with enc := advanceStream s.enc (encodeIndex s.enc x) }) := by
  simp only [exec, execEncn, if_pos h]

/-- DECN of a code in range on an open decoder in terms of the stream it advances (R141). -/
theorem exec_decn_advances (k : Nat) {s : State} (h : s.dec.active = true)
    (hk : (k : Int) ≤ levelMax s.dec.bits.toNat) :
    exec (.decn k) s = .next (respond (nextResponse s.dec k) { s with dec := advanceStream s.dec k }) := by
  simp only [exec, execDecn, if_pos h, if_neg (not_lt.2 hk)]

/-- Every command completes with one of the effects. -/
theorem exec_effect (i : Instr) (s : State) : ∃ t, exec i s = .next t ∧ CommandEffect s t := by
  cases i with
  | cfg bits =>
    by_cases h : bits < 1 ∨ bits > Config.BMAX
    · exact ⟨_, exec_cfg_refused s h, .fault _⟩
    · exact ⟨_, exec_cfg_legal s h, .configure _ (by omega) (by omega)⟩
  | qnt x =>
    by_cases h : s.cfgBits = 0
    · exact ⟨_, exec_qnt_unconfigured x h, .fault _⟩
    · exact ⟨_, exec_qnt_configured x h, .answer _⟩
  | qnt1 x => exact ⟨_, exec_qnt1 x s, .answer _⟩
  | encf x =>
    by_cases h : s.cfgBits = 0
    · exact ⟨_, exec_encf_unconfigured x h, .fault _⟩
    · exact ⟨_, exec_encf_configured x h, .openEncoder _ x h⟩
  | encn x =>
    cases h : s.enc.active with
    | false => exact ⟨_, exec_encn_closed x h, .fault _⟩
    | true => exact ⟨_, exec_encn_advances x h, .advanceEncoder _ _ h⟩
  | decf x =>
    by_cases h : s.cfgBits = 0
    · exact ⟨_, exec_decf_unconfigured x h, .fault _⟩
    · exact ⟨_, exec_decf_configured x h, .openDecoder _ x h⟩
  | decn k =>
    cases h : s.dec.active with
    | false => exact ⟨_, exec_decn_closed k h, .fault _⟩
    | true =>
      by_cases hk : (k : Int) ≤ levelMax s.dec.bits.toNat
      · exact ⟨_, exec_decn_advances k h hk, .advanceDecoder _ _ h⟩
      · exact ⟨_, exec_decn_outOfRange k h (by omega), .fault _⟩
  | endUnits e d => exact ⟨_, exec_end e d s, .close _ e d⟩
  | stat => exact ⟨_, exec_stat s, .answer _⟩

/-- What one step does: it waits, resets, or has a command's effect on the state with the word taken. -/
theorem step_effect {s t : State} (h : step s = .next t) :
    (s.inputs = [] ∧ t = s) ∨
      (∃ rest, s.inputs = .reset :: rest ∧ t = resetInput { s with inputs := rest }) ∨
      ∃ w rest, s.inputs = .command w :: rest ∧ CommandEffect { s with inputs := rest } t := by
  rcases step_cases s with ⟨hin, hs⟩ | ⟨rest, hin, hs⟩ | ⟨w, rest, i, hin, -, hs⟩ | ⟨w, rest, -, hin, -, hs⟩
  · cases hs.symm.trans h
    exact .inl ⟨hin, rfl⟩
  · cases hs.symm.trans h
    exact .inr (.inl ⟨rest, hin, rfl⟩)
  · obtain ⟨u, hu, he⟩ := exec_effect i { s with inputs := rest }
    cases hu.symm.trans (hs.symm.trans h)
    exact .inr (.inr ⟨w, rest, hin, he⟩)
  · cases hs.symm.trans h
    exact .inr (.inr ⟨w, rest, hin, .fault .illegal⟩)

/-! ### The invariant of R31 -/

theorem inv_reset : Inv State.reset := by decide

/-- The registers after the reset input are those after reset (R230). -/
theorem inv_resetInput (s : State) : Inv (resetInput s) := inv_reset

/-- The encoder that END closes or leaves alone meets (I2), (I3). -/
theorem streamOk_closeEncoder {s : State} (e : Bool) (h : streamOk s.enc) : streamOk (closeEncoder e s).enc := by
  cases e with
  | false => rwa [closeEncoder_enc_of_kept s false (.inl rfl)]
  | true => exact streamOk_of_closed (by simp)

/-- The decoder that END closes or leaves alone meets (I2), (I3). -/
theorem streamOk_closeDecoder {s : State} (d : Bool) (h : streamOk s.dec) : streamOk (closeDecoder d s).dec := by
  cases d with
  | false => rwa [closeDecoder_dec_of_kept s false (.inl rfl)]
  | true => exact streamOk_of_closed (by simp)

/-- Every effect keeps (I1), (I2) and (I3). -/
theorem CommandEffect.inv {s t : State} (he : CommandEffect s t) (hs : Inv s) : Inv t := by
  obtain ⟨hcfg, henc, hdec⟩ := hs
  cases he with
  | fault c => exact ⟨hcfg, henc, hdec⟩
  | answer r => exact ⟨hcfg, henc, hdec⟩
  | configure r h h' => exact ⟨(Nat.mod_le _ _).trans h', henc, hdec⟩
  | openEncoder r x h => exact ⟨hcfg, streamOk_openStream x h hcfg, hdec⟩
  | advanceEncoder r k h => exact ⟨hcfg, streamOk_advanceStream k h henc, hdec⟩
  | openDecoder r x h => exact ⟨hcfg, henc, streamOk_openStream x h hcfg⟩
  | advanceDecoder r k h => exact ⟨hcfg, henc, streamOk_advanceStream k h hdec⟩
  | close r e d =>
    refine ⟨by simpa using hcfg, ?_, streamOk_closeDecoder d (by simpa using hdec)⟩
    rw [respond_enc, closeDecoder_enc]
    exact streamOk_closeEncoder e henc

/-- Every step keeps the invariant. -/
theorem inv_step {s t : State} (hs : Inv s) (h : step s = .next t) : Inv t := by
  rcases step_effect h with ⟨-, rfl⟩ | ⟨rest, -, rfl⟩ | ⟨w, rest, -, he⟩
  · exact hs
  · exact inv_resetInput _
  · exact he.inv hs

/-- The host's actions write no register, so the invariant holds of every reachable state. -/
theorem Reachable.inv {s : State} (h : Reachable s) : Inv s := by
  induction h with
  | reset => exact inv_reset
  | step _ hst ih => exact inv_step ih hst
  | present _ _ ih => exact ih
  | assertReset _ ih => exact ih

/-! ### The sticky flags and the configured depth (R22, R21) -/

/-- A flag that is set stays set when others are set beside it. -/
theorem or_and_left {n : Nat} (a b : BitVec n) : (a ||| b) &&& a = a := by
  ext i
  simpa using Or.inl

/-- No effect clears a flag: a fault sets one, the others write none. -/
theorem CommandEffect.keeps_flags {s t : State} (he : CommandEffect s t) : t.err &&& s.err = s.err := by
  cases he with
  | fault c => exact or_and_left s.err (errMask c)
  | close r e d => simp
  | _ => exact BitVec.and_self

/-- No effect takes `CFG.BITS` from a depth to 0: what CFG writes is a depth (R160). -/
theorem CommandEffect.keeps_configured {s t : State} (he : CommandEffect s t) (hs : s.cfgBits ≠ 0) :
    t.cfgBits ≠ 0 := by
  cases he with
  | @configure r bits h h' =>
    have hval : (BitVec.ofNat 5 bits).toNat = bits := by
      rw [BitVec.toNat_ofNat, Nat.mod_eq_of_lt (by norm_num at h' ⊢; omega)]
    intro h0
    have hzero : (BitVec.ofNat 5 bits).toNat = 0 := congrArg BitVec.toNat h0
    omega
  | close r e d => simpa using hs
  | _ => exact hs

end Sys2Proof.Machine

namespace Sys2Proof

open Machine

/-- Settles O43: both units are closed and `CFG.BITS` is 0. -/
theorem invariantHoldsAtReset : Obligations.InvariantHoldsAtReset := inv_reset

/-- Settles O44: `inv_step`, by the effect of the step. -/
theorem invariantIsKeptByEveryStep : Obligations.InvariantIsKeptByEveryStep := by
  unfold Obligations.InvariantIsKeptByEveryStep
  exact fun _ _ => inv_step

/-- Settles O45: the invariant by induction on how the state is reached; the flags by the effect of the step. -/
theorem reachableStatesMeetTheInvariant : Obligations.ReachableStatesMeetTheInvariant := by
  unfold Obligations.ReachableStatesMeetTheInvariant
  refine fun s hs => ⟨hs.inv, fun t ht => ?_⟩
  rcases step_effect ht with ⟨-, rfl⟩ | ⟨rest, hin, -⟩ | ⟨w, rest, -, he⟩
  · exact .inl BitVec.and_self
  · exact .inr ⟨rest, hin⟩
  · exact .inl he.keeps_flags

/-- Settles O18: the reset state is written out with these values. -/
theorem resetStateIsTheResetTable : Obligations.ResetStateIsTheResetTable := by
  unfold Obligations.ResetStateIsTheResetTable
  exact ⟨rfl, rfl, rfl, rfl⟩

/-- Settles O19: the reset input is taken first, and a command's effect keeps the flags and the configuration. -/
theorem onlyResetClearsFlagsAndConfiguration : Obligations.OnlyResetClearsFlagsAndConfiguration := by
  unfold Obligations.OnlyResetClearsFlagsAndConfiguration
  refine ⟨fun s => ⟨_, step_reset (assertReset_inputs s), rfl, rfl, rfl, rfl, rfl, rfl⟩,
    fun s rest hin => ⟨_, step_reset hin, rfl, rfl, rfl, rfl, rfl, rfl⟩, fun s t w rest hin ht => ?_⟩
  rcases step_effect ht with ⟨-, rfl⟩ | ⟨rest', hin', -⟩ | ⟨w', rest', -, he⟩
  · exact ⟨BitVec.and_self, id⟩
  · cases hin.symm.trans hin'
  · exact ⟨he.keeps_flags, he.keeps_configured⟩

end Sys2Proof

/-! SUPPORT. What the commands of one unit leave alone (spec/10_state.md R22, R24, R26), and what no command but STAT reads:
the flags. -/

namespace Sys2Proof.Machine

/-- A fault changes no flag but its own (R207). -/
theorem setErr_and_of_disjoint {c : ErrCode} {m : ErrWord} (h : errMask c &&& m = 0#5) (s : State) :
    (setErr c s).err &&& m = s.err &&& m := by
  rw [setErr_err, BitVec.and_or_distrib_right, h, BitVec.or_zero]

/-! ### The flags are not read (R22) -/

theorem closeEncoder_withErr (b : Bool) (s : State) (e : ErrWord) :
    closeEncoder b { s with err := e } = { closeEncoder b s with err := e } := by
  unfold closeEncoder; split <;> rfl

theorem closeDecoder_withErr (b : Bool) (s : State) (e : ErrWord) :
    closeDecoder b { s with err := e } = { closeDecoder b s with err := e } := by
  unfold closeDecoder; split <;> rfl

/-- Every command but STAT takes the same case whatever the flags, and does the same to everything else. -/
theorem exec_withErr {i : Instr} (hi : i ≠ .stat) (s : State) (e : ErrWord) :
    ∃ t e', exec i s = .next t ∧ exec i { s with err := e } = .next { t with err := e' } := by
  cases i with
  | cfg bits =>
    by_cases h : bits < 1 ∨ bits > Config.BMAX
    · exact ⟨_, _, exec_cfg_refused s h, exec_cfg_refused _ h⟩
    · exact ⟨_, _, exec_cfg_legal s h, exec_cfg_legal _ h⟩
  | qnt x =>
    by_cases h : s.cfgBits = 0
    · exact ⟨_, _, exec_qnt_unconfigured x h, exec_qnt_unconfigured x h⟩
    · exact ⟨_, _, exec_qnt_configured x h, exec_qnt_configured x h⟩
  | qnt1 x => exact ⟨_, _, exec_qnt1 x s, exec_qnt1 x _⟩
  | encf x =>
    by_cases h : s.cfgBits = 0
    · exact ⟨_, _, exec_encf_unconfigured x h, exec_encf_unconfigured x h⟩
    · exact ⟨_, _, exec_encf_configured x h, exec_encf_configured x h⟩
  | encn x =>
    cases h : s.enc.active with
    | false => exact ⟨_, _, exec_encn_closed x h, exec_encn_closed x h⟩
    | true => exact ⟨_, _, exec_encn_open x h, exec_encn_open x h⟩
  | decf x =>
    by_cases h : s.cfgBits = 0
    · exact ⟨_, _, exec_decf_unconfigured x h, exec_decf_unconfigured x h⟩
    · exact ⟨_, _, exec_decf_configured x h, exec_decf_configured x h⟩
  | decn k =>
    cases h : s.dec.active with
    | false => exact ⟨_, _, exec_decn_closed k h, exec_decn_closed k h⟩
    | true =>
      by_cases hk : (k : Int) ≤ levelMax s.dec.bits.toNat
      · exact ⟨_, _, exec_decn_open k h hk, exec_decn_open k h hk⟩
      · have hk' := not_le.1 hk
        exact ⟨_, _, exec_decn_outOfRange k h hk', exec_decn_outOfRange k h hk'⟩
  | endUnits b d =>
    refine ⟨_, e, exec_end b d s, ?_⟩
    rw [exec_end, closeEncoder_withErr, closeDecoder_withErr]
    rfl
  | stat => exact absurd rfl hi

/-- The flags stand in bits 11..7 of the status image (R163): with these masked out, it does not show them. -/
theorem statusImage_withErr (s : State) (e : ErrWord) :
    (statusImage s).setWidth 32 &&& 0xFFFFF07F = (statusImage { s with err := e }).setWidth 32 &&& 0xFFFFF07F#32 := by
  have hmask : ∀ i, 7 ≤ i → i < 12 → (0xFFFFF07F#32).getLsbD i = false := by decide
  apply BitVec.eq_of_getLsbD_eq
  intro i hi
  by_cases hfield : 7 ≤ i ∧ i < 12
  · simp [hmask i hfield.1 hfield.2]
  · simp only [statusImage, BitVec.getLsbD_and, BitVec.getLsbD_setWidth, BitVec.getLsbD_append]
    split_ifs with hbits heact hdact herr
    · rfl
    · rfl
    · rfl
    · omega
    · rfl
    · rfl

end Sys2Proof.Machine

namespace Sys2Proof

open Machine

/-- Settles O33: each command faults with its one fault, or writes the encoder and a response. -/
theorem encoderCommandsFrame : Obligations.EncoderCommandsFrame := by
  unfold Obligations.EncoderCommandsFrame
  refine fun x s t => ⟨fun ht => ?_, fun ht => ?_⟩
  · by_cases h : s.cfgBits = 0
    · cases (exec_encf_unconfigured x h).symm.trans ht
      exact ⟨rfl, rfl, rfl, rfl, setErr_and_of_disjoint (c := .nocfg) rfl s⟩
    · cases (exec_encf_configured x h).symm.trans ht
      exact ⟨rfl, rfl, rfl, rfl, rfl⟩
  · cases h : s.enc.active with
    | false =>
      cases (exec_encn_closed x h).symm.trans ht
      exact ⟨rfl, rfl, rfl, rfl, setErr_and_of_disjoint (c := .seq) rfl s, h, rfl⟩
    | true =>
      cases (exec_encn_open x h).symm.trans ht
      exact ⟨rfl, rfl, rfl, rfl, rfl, rfl, rfl⟩

/-- Settles O36: each command faults with one of its faults, or writes the decoder and a response. -/
theorem decoderCommandsFrame : Obligations.DecoderCommandsFrame := by
  unfold Obligations.DecoderCommandsFrame
  refine fun x k s t => ⟨fun ht => ?_, fun ht => ?_⟩
  · by_cases h : s.cfgBits = 0
    · cases (exec_decf_unconfigured x h).symm.trans ht
      exact ⟨rfl, rfl, rfl, rfl, setErr_and_of_disjoint (c := .nocfg) rfl s⟩
    · cases (exec_decf_configured x h).symm.trans ht
      exact ⟨rfl, rfl, rfl, rfl, rfl⟩
  · cases h : s.dec.active with
    | false =>
      cases (exec_decn_closed k h).symm.trans ht
      exact ⟨rfl, rfl, rfl, rfl, setErr_and_of_disjoint (c := .seq) rfl s, h, rfl⟩
    | true =>
      by_cases hk : (k : Int) ≤ levelMax s.dec.bits.toNat
      · cases (exec_decn_open k h hk).symm.trans ht
        exact ⟨rfl, rfl, rfl, rfl, rfl, rfl, rfl⟩
      · cases (exec_decn_outOfRange k h (not_le.1 hk)).symm.trans ht
        exact ⟨rfl, rfl, rfl, rfl, setErr_and_of_disjoint (c := .code) rfl s, h, rfl⟩

/-- Settles O38: the case that ENCN or DECN takes, and its effect, are given by the unit's own registers. -/
theorem nextCommandsIgnoreCfgBits : Obligations.NextCommandsIgnoreCfgBits := by
  unfold Obligations.NextCommandsIgnoreCfgBits
  refine fun x k s t c => ⟨fun ht => ?_, fun ht => ?_⟩
  · cases h : s.enc.active with
    | false =>
      cases (exec_encn_closed x h).symm.trans ht
      exact exec_encn_closed x h
    | true =>
      cases (exec_encn_open x h).symm.trans ht
      exact exec_encn_open x h
  · cases h : s.dec.active with
    | false =>
      cases (exec_decn_closed k h).symm.trans ht
      exact exec_decn_closed k h
    | true =>
      by_cases hk : (k : Int) ≤ levelMax s.dec.bits.toNat
      · cases (exec_decn_open k h hk).symm.trans ht
        exact exec_decn_open k h hk
      · cases (exec_decn_outOfRange k h (not_le.1 hk)).symm.trans ht
        exact exec_decn_outOfRange k h (not_le.1 hk)

/-- Settles O17: no command but STAT reads the flags, and STAT shows them in bits 11..7 only. -/
theorem errFlagsAlterNoResult : Obligations.ErrFlagsAlterNoResult := by
  unfold Obligations.ErrFlagsAlterNoResult
  refine ⟨fun i s t e hi ht => ?_, fun s t e ht => ?_⟩
  · obtain ⟨u, e', hu, hu'⟩ := exec_withErr hi s e
    cases hu.symm.trans ht
    exact ⟨e', hu'⟩
  · cases (exec_stat s).symm.trans ht
    exact ⟨_, _, rfl, exec_stat _, rfl, statusImage_withErr s e⟩

end Sys2Proof

/-! SUPPORT. States that a host cannot tell apart (Safety.lean, `sameToHost`; spec/10_state.md R24, R25, R30) stay so: one
lemma per shared operation, then one per kind of command. -/

namespace Sys2Proof.Machine

variable {u v : StreamRegs} {s t : State}

/-! ### Units -/

theorem sameUnit_refl (u : StreamRegs) : sameUnit u u := ⟨rfl, fun _ => rfl⟩

/-- The status image shows no latch of a closed unit (R163). -/
theorem shownDepth_of_sameUnit (h : sameUnit u v) : shownDepth u = shownDepth v := by
  obtain ⟨hact, heq⟩ := h
  cases hu : u.active with
  | false => simp [shownDepth, hu, ← hact]
  | true => rw [heq hu]

/-! ### Shared operations -/

theorem sameToHost_respond (r : Response) (h : sameToHost s t) : sameToHost (respond r s) (respond r t) := by
  obtain ⟨hcfg, herr, henc, hdec, hin, hresp⟩ := h
  exact ⟨hcfg, herr, henc, hdec, hin, by simp [hresp]⟩

theorem sameToHost_raiseFault (c : ErrCode) (h : sameToHost s t) : sameToHost (raiseFault c s) (raiseFault c t) := by
  obtain ⟨hcfg, herr, henc, hdec, hin, hresp⟩ := h
  exact ⟨hcfg, by simp [herr], henc, hdec, hin, by simp [hresp]⟩

theorem sameToHost_withCfgBits (c : Depth) (h : sameToHost s t) :
    sameToHost { s with cfgBits := c } { t with cfgBits := c } := by
  obtain ⟨-, herr, henc, hdec, hin, hresp⟩ := h
  exact ⟨rfl, herr, henc, hdec, hin, hresp⟩

theorem sameToHost_withEnc (huv : u = v) (h : sameToHost s t) : sameToHost { s with enc := u } { t with enc := v } := by
  obtain ⟨hcfg, herr, -, hdec, hin, hresp⟩ := h
  exact ⟨hcfg, herr, huv ▸ sameUnit_refl u, hdec, hin, hresp⟩

theorem sameToHost_withDec (huv : u = v) (h : sameToHost s t) : sameToHost { s with dec := u } { t with dec := v } := by
  obtain ⟨hcfg, herr, henc, -, hin, hresp⟩ := h
  exact ⟨hcfg, herr, henc, huv ▸ sameUnit_refl u, hin, hresp⟩

theorem sameToHost_withInputs (rest : List HostInput) (h : sameToHost s t) :
    sameToHost { s with inputs := rest } { t with inputs := rest } := by
  obtain ⟨hcfg, herr, henc, hdec, -, hresp⟩ := h
  exact ⟨hcfg, herr, henc, hdec, rfl, hresp⟩

theorem sameToHost_resetInput (h : sameToHost s t) : sameToHost (resetInput s) (resetInput t) := by
  obtain ⟨-, -, -, -, hin, hresp⟩ := h
  exact ⟨rfl, rfl, sameUnit_refl _, sameUnit_refl _, hin, hresp⟩

/-- A selected unit is closed in both states, whatever free values it draws (R161). -/
theorem sameToHost_closeEncoder (e : Bool) (h : sameToHost s t) : sameToHost (closeEncoder e s) (closeEncoder e t) := by
  obtain ⟨hcfg, herr, henc, hdec, hin, hresp⟩ := h
  refine ⟨by simpa using hcfg, by simpa using herr, ?_, by simpa using hdec, by simpa using hin, by simpa using hresp⟩
  cases e with
  | false => simpa only [closeEncoder_enc_of_kept _ false (.inl rfl)] using henc
  | true => exact ⟨by simp, fun hopen => by simp at hopen⟩

/-- A selected unit is closed in both states, whatever free values it draws (R161). -/
theorem sameToHost_closeDecoder (d : Bool) (h : sameToHost s t) : sameToHost (closeDecoder d s) (closeDecoder d t) := by
  obtain ⟨hcfg, herr, henc, hdec, hin, hresp⟩ := h
  refine ⟨by simpa using hcfg, by simpa using herr, by simpa using henc, ?_, by simpa using hin, by simpa using hresp⟩
  cases d with
  | false => simpa only [closeDecoder_dec_of_kept _ false (.inl rfl)] using hdec
  | true => exact ⟨by simp, fun hopen => by simp at hopen⟩

/-- The status image is the same (R163). -/
theorem statusImage_of_sameToHost (h : sameToHost s t) : statusImage s = statusImage t := by
  obtain ⟨hcfg, herr, henc, hdec, -, -⟩ := h
  obtain ⟨heact, -⟩ := id henc
  obtain ⟨hdact, -⟩ := id hdec
  simp only [statusImage, hcfg, herr, heact, hdact, shownDepth_of_sameUnit henc, shownDepth_of_sameUnit hdec]

/-! ### Commands -/

/-- Two outcomes that a host cannot tell apart. -/
def sameOutcome (o p : Host.Outcome State Fault Refusal) : Prop := ∃ s t, o = .next s ∧ p = .next t ∧ sameToHost s t

theorem sameOutcome_raiseFault (c : ErrCode) (h : sameToHost s t) :
    sameOutcome (.next (raiseFault c s)) (.next (raiseFault c t)) := ⟨_, _, rfl, rfl, sameToHost_raiseFault c h⟩

theorem sameOutcome_respond {r r' : Response} (hr : r = r') (h : sameToHost s t) :
    sameOutcome (.next (respond r s)) (.next (respond r' t)) := ⟨_, _, rfl, rfl, hr ▸ sameToHost_respond r h⟩

theorem sameOutcome_cfg (bits : Nat) (h : sameToHost s t) : sameOutcome (exec (.cfg bits) s) (exec (.cfg bits) t) := by
  by_cases hb : bits < 1 ∨ bits > Config.BMAX
  · rw [exec_cfg_refused s hb, exec_cfg_refused t hb]
    exact sameOutcome_raiseFault _ h
  · rw [exec_cfg_legal s hb, exec_cfg_legal t hb]
    exact sameOutcome_respond rfl (sameToHost_withCfgBits _ h)

theorem sameOutcome_qnt (x : Sample) (h : sameToHost s t) : sameOutcome (exec (.qnt x) s) (exec (.qnt x) t) := by
  obtain ⟨hcfg, -⟩ := id h
  by_cases h0 : s.cfgBits = 0
  · rw [exec_qnt_unconfigured x h0, exec_qnt_unconfigured x (hcfg ▸ h0)]
    exact sameOutcome_raiseFault _ h
  · rw [exec_qnt_configured x h0, exec_qnt_configured x (hcfg ▸ h0)]
    exact sameOutcome_respond (by rw [hcfg]) h

theorem sameOutcome_encf (x : Sample) (h : sameToHost s t) : sameOutcome (exec (.encf x) s) (exec (.encf x) t) := by
  obtain ⟨hcfg, -⟩ := id h
  by_cases h0 : s.cfgBits = 0
  · rw [exec_encf_unconfigured x h0, exec_encf_unconfigured x (hcfg ▸ h0)]
    exact sameOutcome_raiseFault _ h
  · rw [exec_encf_configured x h0, exec_encf_configured x (hcfg ▸ h0)]
    exact sameOutcome_respond (by rw [hcfg]) (sameToHost_withEnc (by rw [hcfg]) h)

theorem sameOutcome_decf (x : Sample) (h : sameToHost s t) : sameOutcome (exec (.decf x) s) (exec (.decf x) t) := by
  obtain ⟨hcfg, -⟩ := id h
  by_cases h0 : s.cfgBits = 0
  · rw [exec_decf_unconfigured x h0, exec_decf_unconfigured x (hcfg ▸ h0)]
    exact sameOutcome_raiseFault _ h
  · rw [exec_decf_configured x h0, exec_decf_configured x (hcfg ▸ h0)]
    exact sameOutcome_respond (by rw [hcfg]) (sameToHost_withDec (by rw [hcfg]) h)

/-- A closed encoder's latches are not read, and an open one's are the same (R121). -/
theorem sameOutcome_encn (x : Sample) (h : sameToHost s t) : sameOutcome (exec (.encn x) s) (exec (.encn x) t) := by
  obtain ⟨-, -, ⟨hact, heq⟩, -⟩ := id h
  cases hs : s.enc.active with
  | false =>
    rw [exec_encn_closed x hs, exec_encn_closed x (hact ▸ hs)]
    exact sameOutcome_raiseFault _ h
  | true =>
    rw [exec_encn_advances x hs, exec_encn_advances x (hact ▸ hs)]
    exact sameOutcome_respond (by rw [heq hs]) (sameToHost_withEnc (by rw [heq hs]) h)

/-- A closed decoder's latches are not read, and an open one's are the same (R141). -/
theorem sameOutcome_decn (k : Nat) (h : sameToHost s t) : sameOutcome (exec (.decn k) s) (exec (.decn k) t) := by
  obtain ⟨-, -, -, ⟨hact, heq⟩, -⟩ := id h
  cases hs : s.dec.active with
  | false =>
    rw [exec_decn_closed k hs, exec_decn_closed k (hact ▸ hs)]
    exact sameOutcome_raiseFault _ h
  | true =>
    by_cases hk : (k : Int) ≤ levelMax s.dec.bits.toNat
    · rw [exec_decn_advances k hs hk, exec_decn_advances k (hact ▸ hs) (heq hs ▸ hk)]
      exact sameOutcome_respond (by rw [heq hs]) (sameToHost_withDec (by rw [heq hs]) h)
    · rw [exec_decn_outOfRange k hs (not_le.1 hk), exec_decn_outOfRange k (hact ▸ hs) (heq hs ▸ not_le.1 hk)]
      exact sameOutcome_raiseFault _ h

theorem sameOutcome_end (e d : Bool) (h : sameToHost s t) :
    sameOutcome (exec (.endUnits e d) s) (exec (.endUnits e d) t) := by
  rw [exec_end, exec_end]
  exact sameOutcome_respond rfl (sameToHost_closeDecoder d (sameToHost_closeEncoder e h))

theorem sameOutcome_stat (h : sameToHost s t) : sameOutcome (exec .stat s) (exec .stat t) := by
  rw [exec_stat, exec_stat, statusImage_of_sameToHost h]
  exact sameOutcome_respond rfl h

/-- No command tells the two states apart. -/
theorem sameOutcome_exec (i : Instr) (h : sameToHost s t) : sameOutcome (exec i s) (exec i t) := by
  cases i with
  | cfg bits => exact sameOutcome_cfg bits h
  | qnt x => exact sameOutcome_qnt x h
  | qnt1 x => exact sameOutcome_respond rfl h
  | encf x => exact sameOutcome_encf x h
  | encn x => exact sameOutcome_encn x h
  | decf x => exact sameOutcome_decf x h
  | decn k => exact sameOutcome_decn k h
  | endUnits e d => exact sameOutcome_end e d h
  | stat => exact sameOutcome_stat h

/-- No step tells the two states apart: they take the same host input. -/
theorem sameOutcome_step (h : sameToHost s t) : sameOutcome (step s) (step t) := by
  obtain ⟨-, -, -, -, hin, -⟩ := id h
  rcases step_cases s with ⟨hs, e⟩ | ⟨rest, hs, e⟩ | ⟨w, rest, i, hs, hd, e⟩ | ⟨w, rest, _, hs, hd, e⟩
  · exact ⟨s, t, e, step_waiting (hin ▸ hs), h⟩
  · exact ⟨_, _, e, step_reset (hin ▸ hs), sameToHost_resetInput (sameToHost_withInputs rest h)⟩
  · rw [e, step_decoded (hin ▸ hs) hd]
    exact sameOutcome_exec i (sameToHost_withInputs rest h)
  · rw [e, step_illegal (hin ▸ hs) hd]
    exact sameOutcome_raiseFault _ (sameToHost_withInputs rest h)

end Sys2Proof.Machine

namespace Sys2Proof

open Machine

/-- Settles O48: `sameOutcome_step`, from one commuting lemma per command. -/
theorem closedLatchesAreUnobservable : Obligations.ClosedLatchesAreUnobservable := by
  unfold Obligations.ClosedLatchesAreUnobservable
  intro s t s' h hs
  obtain ⟨u, t', hu, ht, h'⟩ := sameOutcome_step h
  cases hu.symm.trans hs
  exact ⟨t', ht, h'⟩

end Sys2Proof

/-! SUPPORT. The command port (spec/20_memory.md R51 to R53): a presented word is taken and answered once, and a table word
is presented as the command it encodes. -/

namespace Sys2Proof

/-- The decoder reads the operand integer of a well-formed command back (R70, R76). -/
theorem decode_encode {i : Instr} (h : i.wellFormed = true) : decode (encode i) = .ok i := by
  cases i with
  | cfg bits =>
    have hbits : bits < 32 := by simpa [Instr.wellFormed] using h
    have hval : (BitVec.ofNat 16 bits).toNat = bits := Nat.mod_eq_of_lt (hbits.trans (by norm_num))
    exact (decode_cfg_word (BitVec.ofNat 16 bits)).trans (by rw [hval, if_pos hbits])
  | qnt x => exact decode_qnt_word x
  | qnt1 x => exact decode_qnt1_word x
  | encf x => exact decode_encf_word x
  | encn x => exact decode_encn_word x
  | decf x => exact decode_decf_word x
  | decn k =>
    have hk : k < 65536 := by simpa [Instr.wellFormed] using h
    have hval : (BitVec.ofNat 16 k).toNat = k := Nat.mod_eq_of_lt hk
    exact (decode_decn_word (BitVec.ofNat 16 k)).trans (by rw [hval])
  | endUnits e d => cases e <;> cases d <;> decide
  | stat => exact decode_stat_word 0

/-- A command word numbered as the table numbers it is that word. -/
theorem tableCmdWord_toNat (w : CmdWord) : tableCmdWord 20 w.toNat = some w := by
  have hmod : w.toNat % 2 ^ 20 = w.toNat := Nat.mod_eq_of_lt w.isLt
  have hlt : w.toNat < 2 ^ Config.CW := w.isLt
  rw [tableCmdWord, hmod, if_pos hlt, BitVec.ofNat_toNat, BitVec.setWidth_eq]

end Sys2Proof

namespace Sys2Proof.Machine

/-- The host presents a table word at the head of the inputs (log entry 7). -/
theorem withFetchWord_toNat (s : State) (w : CmdWord) :
    s.withFetchWord 20 w.toNat = { s with inputs := .command w :: s.inputs } := by
  rw [State.withFetchWord, tableCmdWord_toNat]

/-- A presented word, legal or not, is taken and answered by one response (R52). -/
theorem step_command {s : State} {w : CmdWord} {rest : List HostInput} (h : s.inputs = .command w :: rest) :
    ∃ t r, step s = .next t ∧ t.inputs = rest ∧ t.responses = s.responses ++ [r] := by
  cases hd : decode w with
  | ok i =>
    obtain ⟨t, r, ht, hin, hresp, -⟩ := exec_completes i { s with inputs := rest }
    exact ⟨t, r, (step_decoded h hd).trans ht, hin, hresp⟩
  | error e => exact ⟨_, _, step_illegal h hd, rfl, rfl⟩

/-- The block is never stuck (R52). -/
theorem step_completes (s : State) : ∃ t, step s = .next t := by
  rcases step_cases s with ⟨-, h⟩ | ⟨rest, -, h⟩ | ⟨w, rest, i, hin, -, -⟩ | ⟨w, rest, e, -, -, h⟩
  · exact ⟨_, h⟩
  · exact ⟨_, h⟩
  · obtain ⟨t, -, h, -⟩ := step_command hin
    exact ⟨t, h⟩
  · exact ⟨_, h⟩

/-- A run begins with one step. -/
theorem run_succ {s t : State} (h : step s = .next t) (n : Nat) :
    Host.Core.run Sys2Proof.core (n + 1) s = Host.Core.run Sys2Proof.core n t := by
  have hcore : Sys2Proof.core.step s = .next t := h
  simp only [Host.Core.run, hcore]

end Sys2Proof.Machine

namespace Sys2Proof

open Machine

/-- Settles O5: the model's equation for a word that decodes. -/
theorem stepExecutesTheDecodedCommand : Obligations.StepExecutesTheDecodedCommand := by
  unfold Obligations.StepExecutesTheDecodedCommand
  exact fun _ _ _ _ hin hd => step_decoded hin hd

/-- Settles O6: the table word is the command's own word, and that decodes to the command. -/
theorem fetchWordRunsTheCommand : Obligations.FetchWordRunsTheCommand := by
  unfold Obligations.FetchWordRunsTheCommand
  refine fun s i hi => ⟨?_, ?_⟩
  · simp only [decodeTableWord, tableCmdWord_toNat, decode_encode hi]
  · rw [withFetchWord_toNat]
    exact step_decoded rfl (decode_encode hi)

/-- Settles O7: the model's equation for empty inputs. -/
theorem waitingBlockIsUnchanged : Obligations.WaitingBlockIsUnchanged := by
  unfold Obligations.WaitingBlockIsUnchanged
  exact fun _ => step_waiting

/-- Settles O8: every kind of host input has a next state, and a word's is answered once. -/
theorem everyCommandCompletesWithOneResponse : Obligations.EveryCommandCompletesWithOneResponse := by
  unfold Obligations.EveryCommandCompletesWithOneResponse
  exact ⟨step_completes, fun _ _ _ => step_command⟩

/-- Settles O10, by induction on the waiting words: each step answers the oldest. -/
theorem waitingCommandsAreAnsweredInTurn : Obligations.WaitingCommandsAreAnsweredInTurn := by
  unfold Obligations.WaitingCommandsAreAnsweredInTurn
  intro ws
  induction ws with
  | nil => exact fun s hin => ⟨s, [], rfl, hin, (List.append_nil _).symm, rfl⟩
  | cons w ws ih =>
    intro s hin
    obtain ⟨t, r, hstep, htin, htresp⟩ := step_command hin
    obtain ⟨t', rs, hrun, hin', hresp, hlen⟩ := ih t htin
    refine ⟨t', r :: rs, (run_succ hstep _).trans hrun, hin', ?_, congrArg (· + 1) hlen⟩
    rw [hresp, htresp, List.append_assoc, List.singleton_append]

/-- Settles O25: QNT faults with ERR_NOCFG or answers, the other two answer. -/
theorem qntQnt1StatFrame : Obligations.QntQnt1StatFrame := by
  unfold Obligations.QntQnt1StatFrame
  rintro i s t (⟨x, rfl | rfl⟩ | rfl) ht
  · by_cases h : s.cfgBits = 0
    · cases (exec_qnt_unconfigured x h).symm.trans ht
      exact ⟨rfl, rfl, rfl, rfl, rfl, setErr_and_of_disjoint (c := .nocfg) rfl s, .inl ⟨x, rfl⟩⟩
    · cases (exec_qnt_configured x h).symm.trans ht
      exact ⟨rfl, rfl, rfl, rfl, rfl, rfl, .inl ⟨x, rfl⟩⟩
  · cases (exec_qnt1 x s).symm.trans ht
    exact ⟨rfl, rfl, rfl, rfl, rfl, rfl, .inr rfl⟩
  · cases (exec_stat s).symm.trans ht
    exact ⟨rfl, rfl, rfl, rfl, rfl, rfl, .inr rfl⟩

end Sys2Proof

/-! SUPPORT. The footprint of the sample and code commands (spec/20_memory.md R58, R61): each reads `CFG.BITS` and its unit's
registers, and writes these registers, the flags of its faults and one response. -/

namespace Sys2Proof.Machine

/-- What a command of a unit reads is the same in both states; the quantizer has no registers of its own (R61). -/
def readsAlike : CodecUnit → State → State → Prop
  | .quantizer, s, t => t.cfgBits = s.cfgBits
  | .encoder, s, t => t.cfgBits = s.cfgBits ∧ t.enc = s.enc
  | .decoder, s, t => t.cfgBits = s.cfgBits ∧ t.dec = s.dec

/-- New contents for a unit's registers; none leaves them alone. -/
def writeUnit (regs : Option StreamRegs) (s : State) : CodecUnit → State
  | .quantizer => s
  | .encoder => { s with enc := regs.getD s.enc }
  | .decoder => { s with dec := regs.getD s.dec }

/-- What a command of a unit does: the flags it sets, the registers it writes and its response. -/
structure UnitEffect where
  /-- The flags set in `STATUS.ERR`. -/
  flags : ErrWord
  /-- The unit's new registers, none where they are left alone. -/
  regs : Option StreamRegs
  /-- The response. -/
  response : Response

/-- The effect on a state of a command of unit `u`. -/
def UnitEffect.on (e : UnitEffect) (u : CodecUnit) (s : State) : State :=
  respond e.response (writeUnit e.regs { s with err := s.err ||| e.flags } u)

/-- A fault's effect (R207). -/
def UnitEffect.fault (c : ErrCode) : UnitEffect := { flags := errMask c, regs := none, response := faultResponse c }

/-- The effect of a command that answers and sets no flag. -/
def UnitEffect.answer (r : Response) (regs : Option StreamRegs) : UnitEffect :=
  { flags := 0, regs := regs, response := r }

theorem UnitEffect.answer_on (r : Response) (regs : Option StreamRegs) (u : CodecUnit) (s : State) :
    (UnitEffect.answer r regs).on u s = respond r (writeUnit regs s u) := by
  simp only [UnitEffect.on, UnitEffect.answer, BitVec.ofNat_eq_ofNat, BitVec.or_zero]

/-- A command of a unit has one effect on all states that are alike in what it reads. -/
theorem exec_unitEffect {i : Instr} {u : CodecUnit} (hi : unitOf i = some u) (s : State) :
    ∃ e : UnitEffect, ∀ t, readsAlike u s t → exec i t = .next (e.on u t) := by
  cases i with
  | qnt x =>
    cases hi
    by_cases h : s.cfgBits = 0
    · exact ⟨.fault .nocfg, fun t (hcfg : t.cfgBits = s.cfgBits) => exec_qnt_unconfigured x (hcfg.trans h)⟩
    · refine ⟨.answer (quantResponse s.cfgBits x) none, fun t (hcfg : t.cfgBits = s.cfgBits) => ?_⟩
      rw [exec_qnt_configured x (hcfg ▸ h), UnitEffect.answer_on, hcfg]
      rfl
  | qnt1 x =>
    cases hi
    refine ⟨.answer (thresholdResponse x) none, fun t _ => ?_⟩
    rw [exec_qnt1, UnitEffect.answer_on, writeUnit]
  | encf x =>
    cases hi
    by_cases h : s.cfgBits = 0
    · exact ⟨.fault .nocfg, fun t ⟨hcfg, _⟩ => exec_encf_unconfigured x (hcfg.trans h)⟩
    · refine ⟨.answer (firstResponse s.cfgBits x) (some (openStream s.cfgBits x)), fun t ⟨hcfg, _⟩ => ?_⟩
      rw [exec_encf_configured x (hcfg ▸ h), UnitEffect.answer_on, ← hcfg]
      rfl
  | encn x =>
    cases hi
    cases h : s.enc.active with
    | false => exact ⟨.fault .seq, fun t ⟨_, henc⟩ => exec_encn_closed x (henc ▸ h)⟩
    | true =>
      refine ⟨.answer (encodeResponse s.enc x) (some (advanceStream s.enc (encodeIndex s.enc x))),
        fun t ⟨_, henc⟩ => ?_⟩
      rw [exec_encn_advances x (henc ▸ h), UnitEffect.answer_on, henc]
      rfl
  | decf x =>
    cases hi
    by_cases h : s.cfgBits = 0
    · exact ⟨.fault .nocfg, fun t ⟨hcfg, _⟩ => exec_decf_unconfigured x (hcfg.trans h)⟩
    · refine ⟨.answer (firstResponse s.cfgBits x) (some (openStream s.cfgBits x)), fun t ⟨hcfg, _⟩ => ?_⟩
      rw [exec_decf_configured x (hcfg ▸ h), UnitEffect.answer_on, ← hcfg]
      rfl
  | decn k =>
    cases hi
    cases h : s.dec.active with
    | false => exact ⟨.fault .seq, fun t ⟨_, hdec⟩ => exec_decn_closed k (hdec ▸ h)⟩
    | true =>
      by_cases hk : (k : Int) ≤ levelMax s.dec.bits.toNat
      · refine ⟨.answer (nextResponse s.dec k) (some (advanceStream s.dec k)), fun t ⟨_, hdec⟩ => ?_⟩
        rw [exec_decn_advances k (hdec ▸ h) (hdec ▸ hk), UnitEffect.answer_on, hdec]
        rfl
      · exact ⟨.fault .code, fun t ⟨_, hdec⟩ => exec_decn_outOfRange k (hdec ▸ h) (hdec ▸ not_le.1 hk)⟩
  | cfg | endUnits | stat => cases hi

/-! ### Commands of different units (R61) -/

/-- States with the same registers but the flags are alike to every unit. -/
theorem readsAlike_of_regs (u : CodecUnit) {s t : State} (hcfg : t.cfgBits = s.cfgBits) (henc : t.enc = s.enc)
    (hdec : t.dec = s.dec) : readsAlike u s t := by
  cases u with
  | quantizer => exact hcfg
  | encoder => exact ⟨hcfg, henc⟩
  | decoder => exact ⟨hcfg, hdec⟩

theorem readsAlike_refl (u : CodecUnit) (s : State) : readsAlike u s s := readsAlike_of_regs u rfl rfl rfl

section Effects

variable (e f : UnitEffect) {u v : CodecUnit} (s : State)

@[simp] theorem UnitEffect.on_responses : (e.on u s).responses = s.responses ++ [e.response] := by cases u <;> rfl

@[simp] theorem UnitEffect.on_cfgBits : (e.on u s).cfgBits = s.cfgBits := by cases u <;> rfl

theorem UnitEffect.on_enc (h : u ≠ .encoder) : (e.on u s).enc = s.enc := by
  cases u with
  | encoder => exact absurd rfl h
  | quantizer | decoder => rfl

theorem UnitEffect.on_dec (h : u ≠ .decoder) : (e.on u s).dec = s.dec := by
  cases u with
  | decoder => exact absurd rfl h
  | quantizer | encoder => rfl

/-- A unit's command writes nothing that another unit's reads. -/
theorem UnitEffect.readsAlike_on (huv : u ≠ v) : readsAlike v s (e.on u s) := by
  cases v with
  | quantizer => exact e.on_cfgBits s
  | encoder => exact ⟨e.on_cfgBits s, e.on_enc s huv⟩
  | decoder => exact ⟨e.on_cfgBits s, e.on_dec s huv⟩

/-- Effects on different units may be exchanged but for the order of the responses: flags are only set, and each unit
has its own registers. -/
theorem UnitEffect.on_comm (huv : u ≠ v) :
    e.on u (f.on v s) = { f.on v (e.on u s) with responses := s.responses ++ [f.response, e.response] } := by
  have hflags : s.err ||| f.flags ||| e.flags = s.err ||| e.flags ||| f.flags := by
    rw [BitVec.or_assoc, BitVec.or_comm f.flags, BitVec.or_assoc]
  cases u <;> cases v <;> simp [UnitEffect.on, writeUnit, respond, hflags] at huv ⊢

/-- An effect neither reads nor writes what waits on the inputs. -/
theorem UnitEffect.on_withInputs (waiting : List HostInput) :
    e.on u { s with inputs := waiting } = { e.on u s with inputs := waiting } := by cases u <;> rfl

end Effects

theorem execAll_pair {i j : Instr} {s t t' : State} (hi : exec i s = .next t) (hj : exec j t = .next t') :
    execAll [i, j] s = .next t' := by
  rw [execAll_cons hi, execAll_cons hj, execAll]

/-! ### What waits behind a command (R58) -/

theorem closeEncoder_withInputs (b : Bool) (s : State) (waiting : List HostInput) :
    closeEncoder b { s with inputs := waiting } = { closeEncoder b s with inputs := waiting } := by
  unfold closeEncoder; split <;> rfl

theorem closeDecoder_withInputs (b : Bool) (s : State) (waiting : List HostInput) :
    closeDecoder b { s with inputs := waiting } = { closeDecoder b s with inputs := waiting } := by
  unfold closeDecoder; split <;> rfl

/-- A unit's command does the same to the rest of the state whatever waits: the inputs are not in its footprint. -/
theorem exec_unit_withInputs {i : Instr} {u : CodecUnit} (hi : unitOf i = some u) (s : State)
    (waiting : List HostInput) :
    ∃ t, exec i s = .next t ∧ exec i { s with inputs := waiting } = .next { t with inputs := waiting } := by
  obtain ⟨e, he⟩ := exec_unitEffect hi s
  have halike : readsAlike u s { s with inputs := waiting } := readsAlike_of_regs u rfl rfl rfl
  exact ⟨e.on u s, he s (readsAlike_refl u s), (he _ halike).trans (by rw [e.on_withInputs])⟩

/-- Every command does the same to the rest of the state whatever waits on the inputs. -/
theorem exec_withInputs (i : Instr) (s : State) (waiting : List HostInput) :
    ∃ t, exec i s = .next t ∧ exec i { s with inputs := waiting } = .next { t with inputs := waiting } := by
  cases hu : unitOf i with
  | some u => exact exec_unit_withInputs hu s waiting
  | none =>
    cases i with
    | cfg bits =>
      by_cases h : bits < 1 ∨ bits > Config.BMAX
      · exact ⟨_, exec_cfg_refused s h, exec_cfg_refused _ h⟩
      · exact ⟨_, exec_cfg_legal s h, exec_cfg_legal _ h⟩
    | endUnits b d =>
      refine ⟨_, exec_end b d s, ?_⟩
      rw [exec_end, closeEncoder_withInputs, closeDecoder_withInputs]
      rfl
    | stat => exact ⟨_, exec_stat s, exec_stat _⟩
    | qnt | qnt1 | encf | encn | decf | decn => cases hu

end Sys2Proof.Machine

namespace Sys2Proof

open Machine

/-- Settles O49: each command's effect is the same before and after the other's, and the effects may be exchanged. -/
theorem commandsOfDifferentUnitsCommute : Obligations.CommandsOfDifferentUnitsCommute := by
  unfold Obligations.CommandsOfDifferentUnitsCommute
  intro i j u v s hi hj huv
  obtain ⟨e, he⟩ := exec_unitEffect hi s
  obtain ⟨f, hf⟩ := exec_unitEffect hj s
  refine ⟨f.on v (e.on u s), e.on u (f.on v s), e.response, f.response, ?_, ?_, by simp, e.on_comm f s huv⟩
  · exact execAll_pair (he s (readsAlike_refl u s)) (hf _ (e.readsAlike_on s huv))
  · exact execAll_pair (hf s (readsAlike_refl v s)) (he _ (f.readsAlike_on s huv.symm))

/-- Settles O9: a waiting input is read by no command and kept by the reset input. -/
theorem stepIgnoresLaterInputs : Obligations.StepIgnoresLaterInputs := by
  unfold Obligations.StepIgnoresLaterInputs
  intro s t e rest rest' ht
  cases e with
  | reset =>
    cases (step_reset rfl).symm.trans ht
    exact step_reset rfl
  | command w =>
    cases hd : decode w with
    | error err =>
      have hstep (l : List HostInput) : step { s with inputs := .command w :: l } =
          .next (raiseFault .illegal { s with inputs := l }) := step_illegal rfl hd
      cases (hstep rest).symm.trans ht
      exact hstep rest'
    | ok i =>
      have hstep (l : List HostInput) : step { s with inputs := .command w :: l } = exec i { s with inputs := l } :=
        step_decoded rfl hd
      obtain ⟨u, hu, hu'⟩ := exec_withInputs i { s with inputs := rest } rest'
      cases hu.symm.trans ((hstep rest).symm.trans ht)
      exact (hstep rest').trans hu'

end Sys2Proof

/-! SUPPORT. The encoder as the decoder's inverse (spec/30_encoding.md R70 to R73): what a legal word's reading encodes to. -/

namespace Sys2Proof

/-- An operand below 4 is END's mask of its two low bits (R71, format U). -/
theorem operandBits_endUnits_of_lt {op : Operand} (h : op.toNat < 4) :
    operandBits (.endUnits (op.getLsbD 0) (op.getLsbD 1)) = op := by
  apply BitVec.eq_of_toNat_eq
  simp only [operandBits, BitVec.getLsbD, BitVec.toNat_ofNat, Nat.toNat_testBit]
  omega

/-- The operand integer that the decoder reads is written back to the same operand (R76). -/
theorem ofNat_toNat_operand (op : Operand) : BitVec.ofNat 16 op.toNat = op := by
  rw [BitVec.ofNat_toNat, BitVec.setWidth_eq]

/-- What the decoder reads from a word has an encoding, and it is that word (R70 to R73). -/
theorem encode_of_decode {w : CmdWord} {i : Instr} (h : decode w = .ok i) : i.wellFormed = true ∧ encode i = w := by
  revert h
  refine cmdWord_cases (p := fun w => decode w = .ok i → i.wellFormed = true ∧ encode i = w) (fun opc op h => ?_) w
  rcases opcode_cases opc with rfl | rfl | rfl | rfl | rfl | rfl | rfl | rfl | rfl | hres
  · rw [decode_cfg_word] at h
    split at h <;> cases h
    next hop => exact ⟨decide_eq_true hop, congrArg (0x1#4 ++ ·) (ofNat_toNat_operand op)⟩
  · cases (decode_qnt_word op).symm.trans h
    exact ⟨rfl, rfl⟩
  · cases (decode_qnt1_word op).symm.trans h
    exact ⟨rfl, rfl⟩
  · cases (decode_encf_word op).symm.trans h
    exact ⟨rfl, rfl⟩
  · cases (decode_encn_word op).symm.trans h
    exact ⟨rfl, rfl⟩
  · cases (decode_decf_word op).symm.trans h
    exact ⟨rfl, rfl⟩
  · cases (decode_decn_word op).symm.trans h
    exact ⟨decide_eq_true op.isLt, congrArg (0x7#4 ++ ·) (ofNat_toNat_operand op)⟩
  · rw [decode_end_word] at h
    split at h <;> cases h
    next hop => exact ⟨rfl, congrArg (0x8#4 ++ ·) (operandBits_endUnits_of_lt hop)⟩
  · rw [decode_stat_word] at h
    split at h <;> cases h
    next hop =>
      have hop0 : op = 0 := BitVec.eq_of_toNat_eq (Nat.lt_one_iff.1 hop)
      exact ⟨rfl, congrArg (0x9#4 ++ ·) hop0.symm⟩
  · cases (decode_reserved_word hres op).symm.trans h

/-- Settles O1: `decode_encode`, by cases on the command. -/
theorem decodeOfEncodeIsTheCommand : Obligations.DecodeOfEncodeIsTheCommand := by
  unfold Obligations.DecodeOfEncodeIsTheCommand
  exact fun _ => decode_encode

/-- Settles O2: `encode_of_decode`, by cases on the word's opcode. -/
theorem legalWordReencodesToItself : Obligations.LegalWordReencodesToItself := by
  unfold Obligations.LegalWordReencodesToItself
  exact fun _ _ => encode_of_decode

/-- Settles O3: the decoder's equation of each opcode, with the number of the operand as the pattern gives it. -/
theorem opcodeMapNineCommandsSevenReserved : Obligations.OpcodeMapNineCommandsSevenReserved := by
  unfold Obligations.OpcodeMapNineCommandsSevenReserved
  refine ⟨fun v => ?_, decode_qnt_word, decode_qnt1_word, decode_encf_word, decode_encn_word, decode_decf_word,
    decode_decn_word, ?_, decode_stat_word 0, fun _ op h => decode_reserved_word h op⟩
  · have hval : (0#11 ++ v : Operand).toNat = v.toNat := by rw [concat_toNat]; simp
    rw [decode_cfg_word, hval, if_pos v.isLt]
  · decide

/-- Settles O4: the decoder runs on nine fixed words. -/
theorem writtenOutWordsDecode : Obligations.WrittenOutWordsDecode := by
  unfold Obligations.WrittenOutWordsDecode
  decide

end Sys2Proof

/-! SUPPORT. The shapes of the responses (spec/30_encoding.md R74, R75): each command's response is one of them, and a step
adds no other. -/

namespace Sys2Proof.Machine

/-- A fault's response is zeros with its code (R207(c)). -/
theorem responseOk_fault (c : ErrCode) : responseOk (faultResponse c) := by cases c <;> decide

/-- A response with `st = 0` at a legal depth, and no code where none was produced, is as R74 says. -/
theorem responseOk_of_depth {r : Response} (hst : r.st = 0) (h1 : 1 ≤ r.b.toNat) (h : r.b.toNat ≤ Config.BMAX)
    (hcode : r.cv = false → r.code = 0) : responseOk r := by
  have hb : r.b ≠ 0 := fun h0 => by simp [h0] at h1
  exact ⟨by simp [hst], fun hne => absurd hst hne, h, fun h0 => absurd h0 hb, hcode⟩

/-- A response that reports nothing but a value without a depth is as R74 says (R162). -/
theorem responseOk_valueOnly (v : PortWord) : responseOk { okResponse with val := v } :=
  ⟨Nat.zero_le _, fun hne => absurd rfl hne, Nat.zero_le _, fun _ => ⟨rfl, rfl⟩, fun _ => rfl⟩

theorem responseOk_threshold (x : Sample) : responseOk (thresholdResponse x) := by
  unfold thresholdResponse
  split <;> exact responseOk_of_depth rfl (by decide) (by decide) (by simp)

/-- Every command answers in one of the shapes, from a state that meets the invariant. -/
theorem exec_answers_responseOk (i : Instr) {s : State} (hs : Inv s) :
    ∃ t r, exec i s = .next t ∧ t.responses = s.responses ++ [r] ∧ responseOk r := by
  obtain ⟨hcfg, henc, hdec⟩ := hs
  cases i with
  | cfg bits =>
    by_cases h : bits < 1 ∨ bits > Config.BMAX
    · exact ⟨_, _, exec_cfg_refused s h, rfl, responseOk_fault _⟩
    · exact ⟨_, _, exec_cfg_legal s h, rfl, responseOk_valueOnly 0⟩
  | qnt x =>
    by_cases h : s.cfgBits = 0
    · exact ⟨_, _, exec_qnt_unconfigured x h, rfl, responseOk_fault _⟩
    · exact ⟨_, _, exec_qnt_configured x h, rfl, responseOk_of_depth rfl (one_le_of_ne_zero h) hcfg nofun⟩
  | qnt1 x => exact ⟨_, _, exec_qnt1 x s, rfl, responseOk_threshold x⟩
  | encf x =>
    by_cases h : s.cfgBits = 0
    · exact ⟨_, _, exec_encf_unconfigured x h, rfl, responseOk_fault _⟩
    · exact ⟨_, _, exec_encf_configured x h, rfl,
        responseOk_of_depth rfl (one_le_of_ne_zero h) hcfg fun _ => rfl⟩
  | encn x =>
    cases h : s.enc.active with
    | false => exact ⟨_, _, exec_encn_closed x h, rfl, responseOk_fault _⟩
    | true =>
      obtain ⟨h1, h16, -⟩ := henc h
      exact ⟨_, _, exec_encn_open x h, rfl, responseOk_of_depth rfl h1 h16 nofun⟩
  | decf x =>
    by_cases h : s.cfgBits = 0
    · exact ⟨_, _, exec_decf_unconfigured x h, rfl, responseOk_fault _⟩
    · exact ⟨_, _, exec_decf_configured x h, rfl,
        responseOk_of_depth rfl (one_le_of_ne_zero h) hcfg fun _ => rfl⟩
  | decn k =>
    cases h : s.dec.active with
    | false => exact ⟨_, _, exec_decn_closed k h, rfl, responseOk_fault _⟩
    | true =>
      obtain ⟨h1, h16, -⟩ := hdec h
      by_cases hk : (k : Int) ≤ levelMax s.dec.bits.toNat
      · exact ⟨_, _, exec_decn_open k h hk, rfl, responseOk_of_depth rfl h1 h16 fun _ => rfl⟩
      · exact ⟨_, _, exec_decn_outOfRange k h (by omega), rfl, responseOk_fault _⟩
  | endUnits e d => exact ⟨_, okResponse, exec_end e d s, by simp, responseOk_valueOnly 0⟩
  | stat => exact ⟨_, _, exec_stat s, rfl, responseOk_valueOnly _⟩

/-- One more response of an allowed shape keeps the record's shape. -/
theorem responsesOk_of_append {s t : State} {r : Response} (hs : responsesOk s)
    (ht : t.responses = s.responses ++ [r]) (hr : responseOk r) : responsesOk t := by
  unfold responsesOk
  rw [ht]
  exact List.forall_mem_append.2 ⟨hs, List.forall_mem_singleton.2 hr⟩

end Sys2Proof.Machine

namespace Sys2Proof

open Machine

/-- Settles O47: a step adds no response, a command's or a fault's, and each of these has an allowed shape. -/
theorem responsesKeepTheirShape : Obligations.ResponsesKeepTheirShape := by
  unfold Obligations.ResponsesKeepTheirShape
  intro s t hs hresp ht
  rcases step_cases s with ⟨-, h⟩ | ⟨rest, -, h⟩ | ⟨w, rest, i, -, -, h⟩ | ⟨w, rest, -, -, -, h⟩
  · cases h.symm.trans ht
    exact hresp
  · cases h.symm.trans ht
    exact hresp
  · obtain ⟨u, r, hu, hur, hr⟩ := exec_answers_responseOk i (s := { s with inputs := rest }) hs
    cases hu.symm.trans (h.symm.trans ht)
    exact responsesOk_of_append hresp hur hr
  · cases h.symm.trans ht
    exact responsesOk_of_append hresp rfl (responseOk_fault .illegal)

end Sys2Proof

/-! SUPPORT. The sequence contracts (spec/30_encoding.md R79; 50_host_collaborators.md R180 to R183): what the ports of each
response carry in rational terms, then the runs of the pseudo-instructions' expansions. -/

namespace Sys2Proof.Machine

/-! ### What a response's ports carry -/

theorem defaults_legal : Config.defaults.legal := by decide

/-- A code in `0..2^b - 1` is a level index of depth `b` (R10). -/
theorem natCast_le_levelMax {b k : Nat} (h : k ≤ 2 ^ b - 1) : (k : Int) ≤ levelMax b := by
  have hpow : 1 ≤ 2 ^ b := Nat.one_le_two_pow
  unfold levelMax
  zify [hpow] at h
  exact h

/-- `val` of QNT is the nearest level (R100). -/
theorem portValue_quantResponse {c : Depth} (h0 : c ≠ 0) (h : c.toNat ≤ Config.BMAX) (x : Sample) :
    portValue c.toNat (quantResponse c x).val = Q c.toNat (sampleValue x) := by
  have hval := congrArg General.Answer.val (General.answerOf_quantResponse h0 x)
  exact (congrArg (portValue c.toNat) hval).trans (General.portCarries_Q defaults_legal (one_le_of_ne_zero h0) h x)

/-- `val` of QNT1 is the sign of the sample (R104). -/
theorem portValue_thresholdResponse (x : Sample) :
    portValue 1 (thresholdResponse x).val = if 0 ≤ sampleValue x then 1 else -1 := by
  have hsign : 0 ≤ sampleValue x ↔ 0 ≤ sampleInt x := by
    rw [sampleValue_eq, le_div_iff₀ (by norm_num), zero_mul, Int.cast_nonneg_iff]
  have hpos : portValue 1 (toPort unity) = 1 := by
    rw [portValue, toPort_toInt (by simp) (by simp)]
    norm_num [scale_eq, levelMax]
  have hneg : portValue 1 (toPort (-unity)) = -1 := by
    rw [portValue, toPort_toInt (by simp) (by simp)]
    norm_num [scale_eq, levelMax]
  simp only [hsign, thresholdResponse]
  split
  · exact hpos
  · exact hneg

/-- PREV after a FIRST command is the clipped sample (R120, R140). -/
theorem portValue_openStream {c : Depth} (h0 : c ≠ 0) (h : c.toNat ≤ Config.BMAX) (x : Sample) :
    portValue c.toNat (openStream c x).prev = clip (sampleValue x) (-1) 1 :=
  portValue_of_numOf (one_le_of_ne_zero h0) (firstNum_toPort (one_le_of_ne_zero h0) h x)

/-- The sentinel in `res` of a FIRST command reads as 0 (R182). -/
theorem portValue_zero (b : Nat) : portValue b 0 = 0 := by simp [portValue]

section Next

variable {u : StreamRegs} (hok : streamOk u) (h : u.active = true)
include hok h

/-- PREV after a NEXT command, which is also its `val`, is step 5 (R121, R141). -/
theorem portValue_advanceStream (k : Int) : portValue u.bits.toNat (advanceStream u k).prev =
    (decodeTransition u.bits.toNat (portValue u.bits.toNat u.prev) k).recon := by
  obtain ⟨h1, h16, -⟩ := hok h
  exact (congrArg (portValue u.bits.toNat) (General.toPort_recon h1 u.prev k).symm).trans
    (General.portCarries_recon defaults_legal h1 h16 k u.prev)

/-- `res` of a NEXT command is step 4, for a code in range (R121, R141). -/
theorem portValue_nextResponse_res {k : Int} (hk : 0 ≤ k) (hk' : k ≤ levelMax u.bits.toNat) :
    portValue u.bits.toNat (nextResponse u k).res =
      (decodeTransition u.bits.toNat (portValue u.bits.toNat u.prev) k).dq := by
  obtain ⟨h1, h16, -⟩ := hok h
  exact (congrArg (portValue u.bits.toNat) (General.toPort_dq h1 (portValue u.bits.toNat u.prev) k).symm).trans
    (General.portCarries_dq defaults_legal h1 h16 hk hk' _)

/-- ENCN is the decoder's steps on the code that steps 1 to 3 choose (R121). -/
theorem encodeTransition_eq (x : Sample) :
    encodeTransition u.bits.toNat (portValue u.bits.toNat u.prev) (sampleValue x) =
      decodeTransition u.bits.toNat (portValue u.bits.toNat u.prev) (encodeIndex u x) := by
  obtain ⟨h1, -⟩ := hok h
  exact General.encodeStep_eq h1 x

/-- `val` of ENCN is the reconstruction of D0's transition (R121). -/
theorem portValue_encodeResponse_val (x : Sample) : portValue u.bits.toNat (encodeResponse u x).val =
    (encodeTransition u.bits.toNat (portValue u.bits.toNat u.prev) (sampleValue x)).recon := by
  rw [encodeTransition_eq hok h]
  exact portValue_advanceStream hok h _

/-- `res` of ENCN is the quantized residual of D0's transition (R121). -/
theorem portValue_encodeResponse_res (x : Sample) : portValue u.bits.toNat (encodeResponse u x).res =
    (encodeTransition u.bits.toNat (portValue u.bits.toNat u.prev) (sampleValue x)).dq := by
  obtain ⟨h1, -⟩ := hok h
  obtain ⟨hk, hk'⟩ := residualIndex_mem h1 x u.prev.toInt
  rw [encodeTransition_eq hok h]
  exact portValue_nextResponse_res hok h hk hk'

end Next

/-! ### Runs of sample and code commands -/

/-- Commands that only answer, each by a response of its own operand, leave a state where nothing but the responses is
new. -/
theorem execAll_map_of_answers {cmd : Sample → Instr} {r : Sample → Response} {s : State}
    (h : ∀ x rs, exec (cmd x) { s with responses := rs } = .next { s with responses := rs ++ [r x] })
    (xs : List Sample) (rs : List Response) :
    execAll (xs.map cmd) { s with responses := rs } = .next { s with responses := rs ++ xs.map r } := by
  induction xs generalizing rs with
  | nil => rw [List.map_nil, List.map_nil, List.append_nil]; rfl
  | cons x xs ih => rw [List.map_cons, execAll_cons (h x rs), ih, List.append_assoc]; rfl

/-- ENCNs on an open stream are the fold of R182. -/
theorem execAll_encn (xs : List Sample) {s : State} (hok : streamOk s.enc) (h : s.enc.active = true) :
    ∃ t rs, execAll (xs.map .encn) s = .next t ∧ t.responses = s.responses ++ rs ∧
      encodeFrom s.enc.bits.toNat (portValue s.enc.bits.toNat s.enc.prev) (xs.map sampleValue) =
        rs.map (fun r => (portValue s.enc.bits.toNat r.val, portValue s.enc.bits.toNat r.res)) ∧
      ∀ r ∈ rs, r.st = 0 ∧ r.b = s.enc.bits := by
  induction xs generalizing s with
  | nil => exact ⟨s, [], rfl, (List.append_nil _).symm, rfl, nofun⟩
  | cons x xs ih =>
    obtain ⟨t, rs, hrun, hresp, hfold, hrs⟩ :=
      ih (s := respond (encodeResponse s.enc x) { s with enc := advanceStream s.enc (encodeIndex s.enc x) })
        (streamOk_advanceStream _ h hok) h
    refine ⟨t, encodeResponse s.enc x :: rs, (execAll_cons (exec_encn_advances x h) _).trans hrun, ?_, ?_,
      List.forall_mem_cons.2 ⟨⟨rfl, rfl⟩, hrs⟩⟩
    · rw [hresp, respond_responses, List.append_assoc, List.singleton_append]
    · rw [List.map_cons, List.map_cons, encodeFrom, ← portValue_encodeResponse_val hok h,
        ← portValue_encodeResponse_res hok h]
      exact congrArg (_ :: ·) hfold

/-- DECNs of codes in range on an open stream are the fold of R183. -/
theorem execAll_decn (ks : List Nat) {s : State} (hok : streamOk s.dec) (h : s.dec.active = true)
    (hks : ∀ k ∈ ks, (k : Int) ≤ levelMax s.dec.bits.toNat) :
    ∃ t rs, execAll (ks.map .decn) s = .next t ∧ t.responses = s.responses ++ rs ∧
      decodeFrom s.dec.bits.toNat (portValue s.dec.bits.toNat s.dec.prev) (ks.map fun k : Nat => (k : Int)) =
        rs.map (fun r => portValue s.dec.bits.toNat r.val) ∧
      ∀ r ∈ rs, r.st = 0 ∧ r.b = s.dec.bits := by
  induction ks generalizing s with
  | nil => exact ⟨s, [], rfl, (List.append_nil _).symm, rfl, nofun⟩
  | cons k ks ih =>
    obtain ⟨hk, hks⟩ := List.forall_mem_cons.1 hks
    have hprev := portValue_advanceStream hok h k
    obtain ⟨t, rs, hrun, hresp, hfold, hrs⟩ :=
      ih (s := respond (nextResponse s.dec k) { s with dec := advanceStream s.dec k })
        (streamOk_advanceStream _ h hok) h hks
    refine ⟨t, nextResponse s.dec k :: rs, (execAll_cons (exec_decn_advances k h hk) _).trans hrun, ?_, ?_,
      List.forall_mem_cons.2 ⟨⟨rfl, rfl⟩, hrs⟩⟩
    · rw [hresp, respond_responses, List.append_assoc, List.singleton_append]
    · rw [List.map_cons, List.map_cons, decodeFrom, ← hprev]
      exact congrArg (_ :: ·) hfold

section Streams

variable {s : State} (h0 : s.cfgBits ≠ 0) (h16 : s.cfgBits.toNat ≤ Config.BMAX)
include h0 h16

/-- ENCF and its ENCNs on a configured block are `dpcm_encode` at the configured depth (R182). -/
theorem execAll_encodeStream (x : Sample) (xs : List Sample) :
    ∃ t rs, execAll (.encf x :: xs.map .encn) s = .next t ∧ t.responses = s.responses ++ rs ∧
      dpcmEncode s.cfgBits.toNat ((x :: xs).map sampleValue) =
        some (rs.map fun r => (portValue s.cfgBits.toNat r.val, portValue s.cfgBits.toNat r.res)) ∧
      ∀ r ∈ rs, r.st = 0 ∧ r.b = s.cfgBits := by
  have h1 := one_le_of_ne_zero h0
  have hfirst := portValue_openStream h0 h16 x
  obtain ⟨t, rs, hrun, hresp, hfold, hrs⟩ :=
    execAll_encn xs (s := respond (firstResponse s.cfgBits x) { s with enc := openStream s.cfgBits x })
      (streamOk_openStream x h0 h16) rfl
  refine ⟨t, firstResponse s.cfgBits x :: rs, (execAll_cons (exec_encf_configured x h0) _).trans hrun, ?_, ?_,
    List.forall_mem_cons.2 ⟨⟨rfl, rfl⟩, hrs⟩⟩
  · rw [hresp, respond_responses, List.append_assoc, List.singleton_append]
  · rw [List.map_cons, List.map_cons, dpcmEncode, if_neg (not_lt.2 h1), ← hfirst]
    exact congrArg some (congrArg₂ List.cons (Prod.ext rfl (portValue_zero _).symm) hfold)

/-- DECF and its DECNs on a configured block are `dpcm_decode` at the configured depth (R183). -/
theorem execAll_decodeStream (x : Sample) {ks : List Nat} (hks : ∀ k ∈ ks, (k : Int) ≤ levelMax s.cfgBits.toNat) :
    ∃ t rs, execAll (.decf x :: ks.map .decn) s = .next t ∧ t.responses = s.responses ++ rs ∧
      dpcmDecode s.cfgBits.toNat (sampleValue x) (ks.map fun k : Nat => (k : Int)) =
        some (rs.map fun r => portValue s.cfgBits.toNat r.val) ∧
      ∀ r ∈ rs, r.st = 0 ∧ r.b = s.cfgBits := by
  have h1 := one_le_of_ne_zero h0
  have hfirst := portValue_openStream h0 h16 x
  have hcodes : ∀ k ∈ ks.map fun k : Nat => (k : Int), 0 ≤ k ∧ k ≤ levelMax s.cfgBits.toNat :=
    List.forall_mem_map.2 fun k hk => ⟨Int.natCast_nonneg k, hks k hk⟩
  obtain ⟨t, rs, hrun, hresp, hfold, hrs⟩ :=
    execAll_decn ks (s := respond (firstResponse s.cfgBits x) { s with dec := openStream s.cfgBits x })
      (streamOk_openStream x h0 h16) rfl hks
  refine ⟨t, firstResponse s.cfgBits x :: rs, (execAll_cons (exec_decf_configured x h0) _).trans hrun, ?_, ?_,
    List.forall_mem_cons.2 ⟨⟨rfl, rfl⟩, hrs⟩⟩
  · rw [hresp, respond_responses, List.append_assoc, List.singleton_append]
  · rw [dpcmDecode, if_pos ⟨h1, hcodes⟩, ← hfirst]
    exact congrArg (fun l => some (_ :: l)) hfold

end Streams

/-! ### The expansions -/

/-- The state that `CFG b` of a legal depth leaves (R160). -/
def configured (b : Nat) (s : State) : State := respond okResponse { s with cfgBits := BitVec.ofNat _ b }

section Configured

variable {b : Nat} (h1 : 1 ≤ b) (h16 : b ≤ Config.BMAX) (s : State)

theorem configured_responses : (configured b s).responses = s.responses ++ [zeroResponse] := rfl

include h16 in
/-- The depth is the operand (R160). -/
theorem configured_depth : (configured b s).cfgBits.toNat = b :=
  Nat.mod_eq_of_lt (h16.trans_lt (by norm_num))

include h1 h16

theorem configured_ne_zero : (configured b s).cfgBits ≠ 0 := by
  intro h0
  have hb := configured_depth h16 s
  rw [h0] at hb
  exact absurd hb (by simp; omega)

theorem execAll_cfg (is : List Instr) : execAll (.cfg b :: is) s = execAll is (configured b s) :=
  execAll_cons (exec_cfg_legal s (by omega)) is

/-- CFG before a run and END after it add one response of zeros each, and END closes the units it selects (R79). -/
theorem execAll_session {is : List Instr} {t : State} {rs : List Response}
    (hrun : execAll is (configured b s) = .next t) (hresp : t.responses = (configured b s).responses ++ rs)
    (e d : Bool) :
    ∃ u, execAll (.cfg b :: is ++ [.endUnits e d]) s = .next u ∧
      u.responses = s.responses ++ zeroResponse :: (rs ++ [zeroResponse]) ∧
      u.enc.active = (t.enc.active && !e) ∧ u.dec.active = (t.dec.active && !d) := by
  have hend : execAll [.endUnits e d] t = .next (respond okResponse (closeDecoder d (closeEncoder e t))) :=
    execAll_cons (exec_end e d t) []
  refine ⟨_, (execAll_append ((execAll_cfg h1 h16 s is).trans hrun) _).trans hend, ?_, by simp, by simp⟩
  rw [respond_responses, closeDecoder_responses, closeEncoder_responses, hresp, configured_responses,
    List.append_assoc, List.append_assoc]
  rfl

end Configured

end Sys2Proof.Machine

namespace Sys2Proof

open Machine

/-- Settles O51: the stream between CFG and END is `dpcm_encode` by induction on the samples. -/
theorem encodeComputesDpcmEncode : Obligations.EncodeComputesDpcmEncode := by
  unfold Obligations.EncodeComputesDpcmEncode
  intro b x xs s h1 h16
  have hb := configured_depth h16 s
  obtain ⟨t, rs, hrun, hresp, hval, hrs⟩ :=
    execAll_encodeStream (configured_ne_zero h1 h16 s) (hb.trans_le h16) x xs
  obtain ⟨u, hu, huresp, hclosed, -⟩ := execAll_session h1 h16 s hrun hresp true false
  rw [hb] at hval
  exact ⟨_, u, rs, rfl, hu, huresp, hval,
    fun r hr => (hrs r hr).imp_right fun e => (congrArg BitVec.toNat e).trans hb, by simpa using hclosed⟩

/-- Settles O52: the stream between CFG and END is `dpcm_decode` by induction on the codes. -/
theorem decodeComputesDpcmDecode : Obligations.DecodeComputesDpcmDecode := by
  unfold Obligations.DecodeComputesDpcmDecode
  intro b x ks s h1 h16 hks
  have hb := configured_depth h16 s
  have hcodes : ∀ k ∈ ks, (k : Int) ≤ levelMax (configured b s).cfgBits.toNat :=
    fun k hk => hb.symm ▸ natCast_le_levelMax (hks k hk)
  obtain ⟨t, rs, hrun, hresp, hval, hrs⟩ :=
    execAll_decodeStream (configured_ne_zero h1 h16 s) (hb.trans_le h16) x hcodes
  obtain ⟨u, hu, huresp, -, hclosed⟩ := execAll_session h1 h16 s hrun hresp false true
  rw [hb] at hval
  exact ⟨_, u, rs, rfl, hu, huresp, hval,
    fun r hr => (hrs r hr).imp_right fun e => (congrArg BitVec.toNat e).trans hb, by simpa using hclosed⟩

/-- Settles O53: QNT and QNT1 write no register, so each answers its own sample's value. -/
theorem quantizeComputesQuantizeSignal : Obligations.QuantizeComputesQuantizeSignal := by
  unfold Obligations.QuantizeComputesQuantizeSignal
  intro b xs s h1 h16
  have hb := configured_depth h16 s
  have h0 := configured_ne_zero h1 h16 s
  have hqnt := execAll_map_of_answers (cmd := .qnt) (r := quantResponse (configured b s).cfgBits) (s := configured b s)
    (fun x rs => exec_qnt_configured x (s := { configured b s with responses := rs }) h0) xs (configured b s).responses
  have hqnt1 := execAll_map_of_answers (cmd := .qnt1) (r := thresholdResponse) (s := s)
    (fun x _ => exec_qnt1 x _) xs s.responses
  refine ⟨⟨_, _, xs.map (quantResponse (configured b s).cfgBits), rfl, (execAll_cfg h1 h16 s _).trans hqnt,
    List.append_assoc s.responses [okResponse] _, ?_⟩, ⟨_, _, _, rfl, hqnt1, rfl, ?_⟩⟩
  · rw [quantizeSignal, if_neg (not_lt.2 h1), List.map_map, List.map_map]
    refine congrArg some (List.map_congr_left fun x _ => ?_)
    have hval := portValue_quantResponse h0 (hb.trans_le h16) x
    rw [hb] at hval
    exact hval.symm
  · rw [quantize1bit, List.map_map, List.map_map]
    exact List.map_congr_left fun x _ => (portValue_thresholdResponse x).symm

end Sys2Proof

/-! SUPPORT. ERR_ILLEGAL in the block for every choice of the parameters (spec/30_encoding.md R71, R73; 60_exceptions.md
R201), one lemma per command. -/

namespace Sys2Proof.General

open Sys2Proof.Machine

variable {p : Params}

/-- A command's outcome on `s` is ERR_ILLEGAL exactly when `reserved` holds, and then only its flag is set (R201, R207). -/
def IllegalExactly (reserved : Prop) (s : Block p) (g : Block p × Answer p) : Prop :=
  (g.2.st = 1 ↔ reserved) ∧ (g.2.st = 1 → g.1 = { s with err := s.err ||| 0b00001 })

variable {s : Block p} {reserved : Prop}

/-- A check that refuses the reserved words, before anything else, and a meaning that does not answer 1 on the others. -/
theorem illegalExactly_of_check {g : Block p × Answer p} (h : reserved → g = raise .illegal s)
    (h' : ¬ reserved → g.2.st ≠ 1) : IllegalExactly reserved s g := by
  by_cases hr : reserved
  · rw [h hr]
    exact ⟨iff_of_true rfl hr, fun _ => rfl⟩
  · exact ⟨iff_of_false (h' hr) hr, fun hst => absurd hst (h' hr)⟩

/-- A command without a reserved word never answers 1. -/
theorem illegalExactly_never {g : Block p × Answer p} (h : g.2.st ≠ 1) : IllegalExactly False s g :=
  illegalExactly_of_check False.elim fun _ => h

/-- No other fault has code 1 (R200). -/
theorem errStatus_ne_one {c : ErrCode} (h : c ≠ .illegal) : errStatus c ≠ 1 := by
  revert h
  cases c <;> decide

theorem raise_st_ne_one {c : ErrCode} (h : c ≠ .illegal) (s : Block p) : (raise c s).2.st ≠ 1 := errStatus_ne_one h

variable (s) (op : BitVec p.SW)

theorem cfg_illegalExactly : IllegalExactly (2 ^ p.BW ≤ op.toNat) s (cfg op s) := by
  refine illegalExactly_of_check (cfg_reserved s) fun h => ?_
  rw [cfg_unreserved s (not_le.1 h)]
  split
  · exact raise_st_ne_one (by decide) s
  · exact nofun

theorem qnt_illegalExactly : IllegalExactly False s (qnt op s) := by
  refine illegalExactly_never ?_
  unfold qnt
  split
  · exact raise_st_ne_one (by decide) s
  · exact nofun

theorem qnt1_illegalExactly : IllegalExactly False s (qnt1 op s) := by
  refine illegalExactly_never ?_
  unfold qnt1
  split <;> exact nofun

theorem encf_illegalExactly : IllegalExactly False s (encf op s) := by
  refine illegalExactly_never ?_
  unfold encf
  split
  · exact raise_st_ne_one (by decide) s
  · exact nofun

theorem decf_illegalExactly : IllegalExactly False s (decf op s) := by
  refine illegalExactly_never ?_
  unfold decf
  split
  · exact raise_st_ne_one (by decide) s
  · exact nofun

theorem encn_illegalExactly : IllegalExactly False s (encn op s) := by
  refine illegalExactly_never ?_
  unfold encn
  split
  · exact raise_st_ne_one (by decide) s
  · exact nofun

theorem decn_illegalExactly : IllegalExactly (2 ^ p.BMAX ≤ op.toNat) s (decn op s) := by
  refine illegalExactly_of_check (fun h => if_pos ((reservedSet_iff _ op).2 h)) fun h => ?_
  rw [decn, if_neg (mt (reservedSet_iff _ op).1 h)]
  split
  · exact raise_st_ne_one (by decide) s
  · split
    · exact raise_st_ne_one (by decide) s
    · exact nofun

theorem endUnits_illegalExactly : IllegalExactly (4 ≤ op.toNat) s (endUnits op s) := by
  refine illegalExactly_of_check (endUnits_reserved s) fun h => ?_
  rw [endUnits_unreserved s (not_le.1 h)]
  exact nofun

theorem stat_illegalExactly : IllegalExactly (1 ≤ op.toNat) s (stat op s) := by
  refine illegalExactly_of_check (stat_reserved s) fun h => ?_
  rw [stat_unreserved s (not_le.1 h)]
  exact nofun

/-- A word whose opcode is reserved or whose operand has a reserved bit set (R73(a), (b)). -/
def IsReservedWord (opc : BitVec 4) (op : BitVec p.SW) : Prop :=
  opc = 0 ∨ 10 ≤ opc.toNat ∨ (opc = 1 ∧ 2 ^ p.BW ≤ op.toNat) ∨ (opc = 7 ∧ 2 ^ p.BMAX ≤ op.toNat) ∨
    (opc = 8 ∧ 4 ≤ op.toNat) ∨ (opc = 9 ∧ op.toNat ≠ 0)

/-- A word answers ERR_ILLEGAL exactly when it is reserved: by opcode, each from its command's lemma (R201). -/
theorem step_illegalExactly (opc : BitVec 4) : IllegalExactly (IsReservedWord opc op) s (step s (opc ++ op)) := by
  by_cases hres : opc = 0 ∨ 10 ≤ opc.toNat
  · rw [step_reserved s hres]
    exact illegalExactly_of_check (fun _ => rfl) fun h => absurd (or_assoc.1 (.inl hres)) h
  rw [step_append, IsReservedWord]
  rcases opcode_cases opc with rfl | rfl | rfl | rfl | rfl | rfl | rfl | rfl | rfl | h
  · simpa using cfg_illegalExactly s op
  · simpa using qnt_illegalExactly s op
  · simpa using qnt1_illegalExactly s op
  · simpa using encf_illegalExactly s op
  · simpa using encn_illegalExactly s op
  · simpa using decf_illegalExactly s op
  · simpa using decn_illegalExactly s op
  · simpa using endUnits_illegalExactly s op
  · simpa [Nat.one_le_iff_ne_zero] using stat_illegalExactly s op
  · exact absurd h hres

end Sys2Proof.General

namespace Sys2Proof

/-- Settles O58: each command checks its reserved bits first, and no other answer has `st = 1`. -/
theorem generalIllegalWordsAreTheReservedOnes : Obligations.GeneralIllegalWordsAreTheReservedOnes := by
  unfold Obligations.GeneralIllegalWordsAreTheReservedOnes
  exact fun _ s opc op => General.step_illegalExactly s op opc

end Sys2Proof

/-! SUPPORT. The uniform quantizer (spec/40_quantizer.md R100 to R105): the laws of `Qidx` and `Q` over exact rationals, then
what the ports of QNT and QNT1 carry. -/

namespace Sys2Proof.Machine

/-! ### Rounding half up (R9) -/

theorem rnd_intCast (n : Int) : rnd n = n := by
  rw [rnd, Int.floor_eq_iff]
  constructor <;> linarith

theorem rnd_mono {v w : ℚ} (h : v ≤ w) : rnd v ≤ rnd w := Int.floor_mono (by linarith)

theorem rnd_intCast_sub (n : Int) (v : ℚ) : rnd (n - v) = n + rnd (-v) := by
  rw [rnd, rnd, ← Int.floor_intCast_add]
  congr 1
  ring

/-- Rounding is odd exactly off the ties: a tie goes up on both sides of zero. -/
theorem rnd_neg_iff (v : ℚ) : rnd (-v) = -rnd v ↔ ¬ ∃ n : Int, v = n + 1 / 2 := by
  constructor
  · rintro h ⟨n, rfl⟩
    have hup : rnd ((n : ℚ) + 1 / 2) = n + 1 := by
      rw [rnd, Int.floor_eq_iff]
      push_cast
      constructor <;> linarith
    have hneg : rnd (-((n : ℚ) + 1 / 2)) = -n := by
      rw [rnd, Int.floor_eq_iff]
      push_cast
      constructor <;> linarith
    omega
  · intro htie
    have hle : (rnd v : ℚ) ≤ v + 1 / 2 := Int.floor_le _
    have hlt : v + 1 / 2 < rnd v + 1 := Int.lt_floor_add_one _
    have hne : (rnd v : ℚ) ≠ v + 1 / 2 := fun h => htie ⟨rnd v - 1, by push_cast; linarith⟩
    have hlt' : (rnd v : ℚ) < v + 1 / 2 := lt_of_le_of_ne hle hne
    rw [rnd, Int.floor_eq_iff]
    push_cast
    constructor <;> linarith

/-! ### The laws of the quantizer (R103) -/

theorem levelMax_nonneg (b : Nat) : 0 ≤ levelMax b := sub_nonneg.2 (one_le_pow₀ (by norm_num))

theorem Qidx_mono (b : Nat) {v w : ℚ} (h : v ≤ w) : Qidx b v ≤ Qidx b w := by
  have hM : (0 : ℚ) ≤ levelMax b := Int.cast_nonneg (levelMax_nonneg b)
  exact rnd_mono (mul_le_mul_of_nonneg_right (by linarith) hM)

/-- Mirroring a value mirrors its index, up to the rounding of a tie. -/
theorem Qidx_neg (b : Nat) (v : ℚ) : Qidx b (-v) = levelMax b + rnd (-((v + 1) / 2 * levelMax b)) := by
  rw [Qidx, ← rnd_intCast_sub]
  congr 1
  ring

section Depth

variable {b : Nat} (hb : 1 ≤ b)
include hb

/-- A level over the spacing's denominator (R10). -/
theorem lvl_mul_levelMax (k : Int) : lvl b k * levelMax b = 2 * k - levelMax b := by
  have hM := levelMaxQ_pos hb
  unfold lvl
  field_simp
  ring

theorem lvl_mono {k l : Int} (h : k ≤ l) : lvl b k ≤ lvl b l := by
  have hM := levelMaxQ_pos hb
  have hkl : (k : ℚ) ≤ l := by exact_mod_cast h
  refine le_of_mul_le_mul_right ?_ hM
  rw [lvl_mul_levelMax hb, lvl_mul_levelMax hb]
  linarith

/-- The index of a level is its own (R11). -/
theorem Qidx_lvl (k : Int) : Qidx b (lvl b k) = k := by
  have hk : (lvl b k + 1) / 2 * levelMax b = k := by linarith [lvl_mul_levelMax hb k]
  rw [Qidx, hk, rnd_intCast]

theorem Q_idempotent (v : ℚ) : Q b (Q b v) = Q b v := congrArg (lvl b) (Qidx_lvl hb (Qidx b v))

/-- The nearest level is within half a spacing. -/
theorem abs_Q_sub_le (v : ℚ) : |Q b v - v| ≤ 1 / levelMax b := by
  have hM := levelMaxQ_pos hb
  obtain ⟨hlo, hhi⟩ := General.Qidx_near b v
  have hQ : Q b v * levelMax b = 2 * Qidx b v - levelMax b := lvl_mul_levelMax hb _
  have habs : |Q b v - v| * levelMax b = |(Q b v - v) * levelMax b| := by rw [abs_mul, abs_of_pos hM]
  rw [le_div_iff₀ hM, habs, sub_mul, hQ, abs_le]
  constructor <;> linarith

theorem Q_mono {v w : ℚ} (h : v ≤ w) : Q b v ≤ Q b w := lvl_mono hb (Qidx_mono b h)

theorem levelMaxQ_eq : (levelMax b : ℚ) = 2 * 2 ^ (b - 1) - 1 := by exact_mod_cast levelMax_eq hb

/-- Zero lies between two levels, and goes to the upper one. -/
theorem Qidx_zero : Qidx b 0 = 2 ^ (b - 1) := by
  rw [Qidx, rnd, Int.floor_eq_iff, levelMaxQ_eq hb]
  push_cast
  constructor <;> linarith

theorem Q_zero : Q b 0 = 1 / levelMax b := by
  have hM := levelMaxQ_pos hb
  rw [eq_div_iff hM.ne', Q, lvl_mul_levelMax hb, Qidx_zero hb, levelMaxQ_eq hb]
  push_cast
  ring

theorem Q_neg_iff (v : ℚ) : Q b (-v) = -Q b v ↔ ¬ isTie b v := by
  have hM := levelMaxQ_pos hb
  calc Q b (-v) = -Q b v
      ↔ Q b (-v) * levelMax b = -Q b v * levelMax b := (mul_left_inj' hM.ne').symm
    _ ↔ (2 * Qidx b (-v) - levelMax b : ℚ) = -(2 * Qidx b v - levelMax b) := by
        rw [neg_mul, Q, Q, lvl_mul_levelMax hb, lvl_mul_levelMax hb]
    _ ↔ 2 * Qidx b (-v) - levelMax b = -(2 * Qidx b v - levelMax b) := by norm_cast
    _ ↔ rnd (-((v + 1) / 2 * levelMax b)) = -rnd ((v + 1) / 2 * levelMax b) := by
        rw [Qidx_neg, Qidx]
        omega
    _ ↔ ¬ isTie b v := rnd_neg_iff _

/-! ### QNT's ports (R101, R102) -/

/-- R101's bound on QNT's value. -/
theorem abs_levelNum_quantIndex_le (x : Sample) :
    |levelNum b (quantIndex b (sampleInt x))| ≤ (2 ^ (b + 1) - 1) * 2 ^ 14 := by
  obtain ⟨hlo, hhi⟩ := quantIndex_bounds hb x
  have hM := levelMax_eq hb
  have hpow : (2 : Int) ^ (b + 1) = 4 * 2 ^ (b - 1) := by
    obtain ⟨n, rfl⟩ : ∃ n, b = n + 1 := ⟨b - 1, by omega⟩
    rw [Nat.add_sub_cancel]
    ring
  rw [levelNum, unity_eq, hpow, hM, abs_le]
  omega

/-- `x = -2` is a tie below the range, and meets the lower bound of the index. -/
theorem quantIndex_min : quantIndex b (sampleInt 0x8000) = 1 - 2 ^ (b - 1) := by
  have hx : sampleInt 0x8000 = -32768 := by decide
  have hM := levelMax_eq hb
  rw [quantIndex, floorDiv, hx, unity_eq, hM]
  omega

end Depth

section Ports

variable {c : Depth} (h0 : c ≠ 0) (h : c.toNat ≤ Config.BMAX) (x : Sample)
include h0 h

/-- QNT's index fits the `code` port. -/
theorem quantResponse_code_toInt : (quantResponse c x).code.toInt = quantIndex c.toNat (sampleInt x) := by
  obtain ⟨hlo, hhi⟩ := quantIndex_bounds (one_le_of_ne_zero h0) x
  have hpow : (2 : Int) ^ (c.toNat - 1) ≤ 2 ^ 15 := pow_le_pow_right₀ (by norm_num) (by simp at h; omega)
  exact toCode_toInt (by omega) (by omega)

/-- QNT's value fits the `val` port. -/
theorem quantResponse_val_toInt :
    (quantResponse c x).val.toInt = levelNum c.toNat (quantIndex c.toNat (sampleInt x)) := by
  have habs := abs_levelNum_quantIndex_le (one_le_of_ne_zero h0) x
  have hpow : (2 : Int) ^ (c.toNat + 1) ≤ 2 ^ 17 := pow_le_pow_right₀ (by norm_num) (by simp at h; omega)
  obtain ⟨hlo, hhi⟩ := abs_le.1 habs
  exact toPort_toInt (by omega) (by omega)

end Ports

/-! ### QNT1 and depth 1 (R104, R105) -/

theorem thresholdResponse_of_nonneg {x : Sample} (h : 0 ≤ sampleInt x) :
    thresholdResponse x = { st := 0, cv := true, b := 1, code := 1, res := 0, val := 16384 } := if_pos h

theorem thresholdResponse_of_neg {x : Sample} (h : sampleInt x < 0) :
    thresholdResponse x = { st := 0, cv := true, b := 1, code := 0, res := 0, val := -16384 } := if_neg (not_le.2 h)

/-- At depth 1 the index is the sample's sign: a sample word spans one spacing on either side of zero. -/
theorem quantIndex_one (x : Sample) : quantIndex 1 (sampleInt x) = if 0 ≤ sampleInt x then 1 else 0 := by
  obtain ⟨hlo, hhi⟩ := sampleInt_bounds x
  have hM : levelMax 1 = 1 := rfl
  rw [quantIndex, floorDiv, unity_eq, hM]
  split <;> omega

theorem quantResponse_one (x : Sample) : quantResponse 1 x = thresholdResponse x := by
  have hq : quantIndex (1 : Depth).toNat (sampleInt x) = if 0 ≤ sampleInt x then 1 else 0 := quantIndex_one x
  rw [quantResponse, hq]
  by_cases h : 0 ≤ sampleInt x
  · rw [if_pos h, thresholdResponse_of_nonneg h]
    rfl
  · rw [if_neg h, thresholdResponse_of_neg (not_le.1 h)]
    rfl

end Sys2Proof.Machine

namespace Sys2Proof

open Machine

/-- Settles O20: the ports carry R102's integer forms, which are the rational ones over `S(b)`. -/
theorem qntAnswersTheNearestLevel : Obligations.QntAnswersTheNearestLevel := by
  unfold Obligations.QntAnswersTheNearestLevel
  intro x s
  refine ⟨wordRuns_of_decode (decode_qnt_word x), fun h0 => ?_, fun h0 h =>
    ⟨_, exec_qnt_configured x h0, rfl, rfl, rfl, ?_, rfl, ?_⟩⟩
  · rw [exec_qnt_unconfigured x h0, raiseFault_eq]
    rfl
  · rw [quantResponse_code_toInt h0 h, quantIndex_eq_Qidx]
  · rw [quantResponse_val_toInt h0 h, quantIndex_eq_Qidx, levelNum_cast (one_le_of_ne_zero h0), Q]

/-- Settles O21: R101's bounds on the integer forms, which the ports carry. -/
theorem qntIndexAndValueBounds : Obligations.QntIndexAndValueBounds := by
  unfold Obligations.QntIndexAndValueBounds
  intro x s h0 h
  have h1 := one_le_of_ne_zero h0
  obtain ⟨hlo, hhi⟩ := quantIndex_bounds h1 x
  refine ⟨_, exec_qnt_configured x h0, ?_⟩
  rw [quantResponse_code_toInt h0 h, quantResponse_val_toInt h0 h]
  exact ⟨hlo, hhi, abs_levelNum_quantIndex_le h1 x, fun hx => hx ▸ quantIndex_min h1⟩

/-- Settles O22: the laws one by one; symmetry fails exactly where rounding half up is not odd. -/
theorem quantizerRangeIdempotenceErrorMonotone : Obligations.QuantizerRangeIdempotenceErrorMonotone := by
  unfold Obligations.QuantizerRangeIdempotenceErrorMonotone
  exact fun b hb => ⟨fun _ => Qidx_mem hb, Q_idempotent hb, abs_Q_sub_le hb, fun _ _ => Q_mono hb, Q_zero hb,
    Q_neg_iff hb⟩

/-- Settles O23: QNT1's response, by the sample's sign. -/
theorem qnt1IsTheThresholdAtZero : Obligations.Qnt1IsTheThresholdAtZero := by
  unfold Obligations.Qnt1IsTheThresholdAtZero
  refine fun x s => ⟨wordRuns_of_decode (decode_qnt1_word x), fun h => ?_, fun h => ?_⟩
  · rw [exec_qnt1, thresholdResponse_of_nonneg h, respond]
  · rw [exec_qnt1, thresholdResponse_of_neg h, respond]

/-- Settles O24: at depth 1 the two responses are equal. -/
theorem qnt1AgreesWithQntAtDepthOne : Obligations.Qnt1AgreesWithQntAtDepthOne := by
  unfold Obligations.Qnt1AgreesWithQntAtDepthOne
  intro x s h
  have h0 : s.cfgBits ≠ 0 := by rw [h]; decide
  rw [exec_qnt_configured x h0, exec_qnt1, h, quantResponse_one]

end Sys2Proof

/-! SUPPORT. The DPCM encoder (spec/41_dpcm_encoder.md R120 to R126): its transition over exact rationals, what the ports of
ENCF and ENCN carry, and the range of every codec output. -/

namespace Sys2Proof.Machine

/-! ### Clipping at a bound (R8) -/

theorem clip_of_le {v lo hi : ℚ} (h : lo ≤ hi) (hv : v ≤ lo) : clip v lo hi = lo := by
  unfold clip; split <;> [skip; split] <;> linarith

theorem clip_of_ge {v lo hi : ℚ} (h : lo ≤ hi) (hv : hi ≤ v) : clip v lo hi = hi := by
  unfold clip; split <;> [skip; split] <;> linarith

/-! ### The transition over rationals (R121, R125, R126) -/

theorem lvl_zero (b : Nat) : lvl b 0 = -1 := by simp [lvl]

/-- The grid of the residual determines the code (R125). -/
theorem residualNum_inj {b : Nat} {k l : Int} : residualNum b k = residualNum b l ↔ k = l := by
  rw [residualNum, residualNum, unity_eq]
  omega

section Transition

variable {b : Nat} (hb : 1 ≤ b)
include hb

/-- The top level is the upper rail (R10). -/
theorem lvl_levelMax : lvl b (levelMax b) = 1 := by
  have hM := levelMaxQ_pos hb
  rw [lvl, mul_div_cancel_right₀ _ hM.ne']
  norm_num

/-- The level just above zero is half a spacing up (R10). -/
theorem lvl_upper_middle : lvl b (2 ^ (b - 1)) = 1 / levelMax b := by
  rw [← Q_zero hb, Q, Qidx_zero hb]

/-- The level just below zero is half a spacing down (R10). -/
theorem lvl_lower_middle : lvl b (2 ^ (b - 1) - 1) = -(1 / levelMax b) := by
  have hM := levelMaxQ_pos hb
  have hlvl := lvl_mul_levelMax hb (2 ^ (b - 1) - 1)
  rw [← neg_div, eq_div_iff hM.ne', hlvl, levelMaxQ_eq hb]
  push_cast
  ring

/-- A clipped half difference that is a level has that level's code: the transition is the decoder's on it. -/
theorem encodeTransition_of_level {p x : ℚ} {k : Int} (h : clip ((x - p) / 2) (-1) 1 = lvl b k) :
    encodeTransition b p x = decodeTransition b p k := by
  rw [encodeTransition, h, Qidx_lvl hb]

/-- A zero difference goes to the level half a spacing up, so an idle input rises by a spacing (R126(b)). -/
theorem encodeTransition_idle_rise {c : ℚ} (hlo : -1 ≤ c) (hhi : c + 2 / levelMax b ≤ 1) :
    encodeTransition b c c =
      { code := 2 ^ (b - 1), dq := 2 / levelMax b, recon := c + 2 / levelMax b } := by
  have hM := levelMaxQ_pos hb
  have hstep : (0 : ℚ) < 2 / levelMax b := by positivity
  have hdiff : clip ((c - c) / 2) (-1) 1 = 0 := by
    rw [sub_self, zero_div, clip_of_mem (by norm_num) (by norm_num)]
  have hdq : lvl b (2 ^ (b - 1)) * 2 = 2 / levelMax b := by rw [lvl_upper_middle hb]; ring
  rw [encodeTransition, hdiff, Qidx_zero hb, decodeTransition, hdq, clip_of_mem (by linarith) hhi]

/-- A difference of one spacing down is on the residual's grid, so the output returns to the input (R126(b)). -/
theorem encodeTransition_idle_fall {c : ℚ} (hlo : -1 ≤ c) (hhi : c ≤ 1) :
    encodeTransition b (c + 2 / levelMax b) c =
      { code := 2 ^ (b - 1) - 1, dq := -(2 / levelMax b), recon := c } := by
  have hM : (1 : ℚ) ≤ levelMax b := by exact_mod_cast one_le_levelMax hb
  have hinv : (1 : ℚ) / levelMax b ≤ 1 := (div_le_one (by linarith)).2 hM
  have hpos : (0 : ℚ) < 1 / levelMax b := by positivity
  have hhalf : (c - (c + 2 / levelMax b)) / 2 = -(1 / levelMax b) := by ring
  have hdiff : clip ((c - (c + 2 / levelMax b)) / 2) (-1) 1 = lvl b (2 ^ (b - 1) - 1) := by
    rw [hhalf, clip_of_mem (by linarith) (by linarith), lvl_lower_middle hb]
  have hdq : lvl b (2 ^ (b - 1) - 1) * 2 = -(2 / levelMax b) := by rw [lvl_lower_middle hb]; ring
  rw [encodeTransition_of_level hb hdiff, decodeTransition, hdq, add_neg_cancel_right, clip_of_mem hlo hhi]

/-- A difference above 2 takes the top level, and the output the upper rail (R126(d)). -/
theorem encodeTransition_overload_up {p x : ℚ} (hp : -1 ≤ p) (h : 2 < x - p) :
    encodeTransition b p x = { code := levelMax b, dq := 2, recon := 1 } := by
  have hdiff : clip ((x - p) / 2) (-1) 1 = lvl b (levelMax b) := by
    rw [lvl_levelMax hb, clip_of_ge (by norm_num) (by linarith)]
  rw [encodeTransition_of_level hb hdiff, decodeTransition, lvl_levelMax hb, one_mul,
    clip_of_ge (by norm_num) (by linarith)]

/-- A difference below -2 takes the bottom level, and the output the lower rail (R126(d)). -/
theorem encodeTransition_overload_down {p x : ℚ} (hp : p ≤ 1) (h : x - p < -2) :
    encodeTransition b p x = { code := 0, dq := -2, recon := -1 } := by
  have hdiff : clip ((x - p) / 2) (-1) 1 = lvl b 0 := by
    rw [lvl_zero, clip_of_le (by norm_num) (by linarith)]
  rw [encodeTransition_of_level hb hdiff, decodeTransition, lvl_zero, neg_one_mul,
    clip_of_le (by norm_num) (by linarith)]

/-- Where neither clip acts, the output misses the sample by twice the quantizer's error on half the difference
(R126(a)). -/
theorem abs_recon_sub_le {p x : ℚ} (hx : |x - p| ≤ 2) (hr : |p + (encodeTransition b p x).dq| ≤ 1) :
    |(encodeTransition b p x).recon - x| ≤ 2 / levelMax b := by
  obtain ⟨hlo, hhi⟩ := abs_le.1 hx
  have hdiff : clip ((x - p) / 2) (-1) 1 = (x - p) / 2 := clip_of_mem (by linarith) (by linarith)
  have hdq : (encodeTransition b p x).dq = Q b ((x - p) / 2) * 2 := by rw [encodeTransition, hdiff]; rfl
  have hrecon : (encodeTransition b p x).recon = p + Q b ((x - p) / 2) * 2 := by
    rw [← hdq]
    exact clip_of_mem (abs_le.1 hr).1 (abs_le.1 hr).2
  calc |(encodeTransition b p x).recon - x|
      = |(Q b ((x - p) / 2) - (x - p) / 2) * 2| := by rw [hrecon]; congr 1; ring
    _ = |Q b ((x - p) / 2) - (x - p) / 2| * 2 := by rw [abs_mul, abs_two]
    _ ≤ 1 / levelMax b * 2 := mul_le_mul_of_nonneg_right (abs_Q_sub_le hb _) (by norm_num)
    _ = 2 / levelMax b := by ring

/-- Two ports that carry the same value at a depth are equal (R12). -/
theorem eq_of_portValue_eq {w w' : PortWord} (h : portValue b w = portValue b w') : w = w' := by
  have hS := scaleQ_pos hb
  have hw : (w.toInt : ℚ) = w'.toInt := (div_left_inj' hS.ne').1 h
  exact BitVec.eq_of_toInt_eq (by exact_mod_cast hw)

end Transition

/-! ### ENCN's ports (R121, R125) -/

section EncodePorts

variable {u : StreamRegs} (hok : streamOk u) (h : u.active = true) (x : Sample)
include hok h

theorem encodeIndex_mem : 0 ≤ encodeIndex u x ∧ encodeIndex u x ≤ levelMax u.bits.toNat := by
  obtain ⟨h1, -⟩ := hok h
  exact residualIndex_mem h1 x u.prev.toInt

/-- The `code` port carries steps 1 to 3's index. -/
theorem encodeResponse_code_toInt : (encodeResponse u x).code.toInt = encodeIndex u x := by
  obtain ⟨h1, h16, -⟩ := hok h
  exact residualIndex_toCode h1 h16 x u.prev.toInt

/-- The `res` port carries step 4's numerator. -/
theorem encodeResponse_res_toInt :
    (encodeResponse u x).res.toInt = residualNum u.bits.toNat (encodeIndex u x) := by
  obtain ⟨-, h16, -⟩ := hok h
  obtain ⟨hk, hk'⟩ := encodeIndex_mem hok h x
  exact residualNum_toPort h16 hk hk'

/-- `code` is the rational transition's (R121 step 3). -/
theorem encodeResponse_code_eq : (encodeResponse u x).code.toInt =
    (encodeTransition u.bits.toNat (portValue u.bits.toNat u.prev) (sampleValue x)).code := by
  rw [encodeResponse_code_toInt hok h, encodeTransition_eq hok h]
  rfl

/-- `res` is `num_b(dq)` (R121 step 4). -/
theorem encodeResponse_res_eq : ((encodeResponse u x).res.toInt : ℚ) = numOf u.bits.toNat
    (encodeTransition u.bits.toNat (portValue u.bits.toNat u.prev) (sampleValue x)).dq := by
  obtain ⟨h1, -⟩ := hok h
  rw [encodeResponse_res_toInt hok h, residualNum_cast h1, encodeTransition_eq hok h]
  rfl

/-- `val` is `num_b(rec)` (R121 step 5). -/
theorem encodeResponse_val_eq : ((encodeResponse u x).val.toInt : ℚ) = numOf u.bits.toNat
    (encodeTransition u.bits.toNat (portValue u.bits.toNat u.prev) (sampleValue x)).recon := by
  obtain ⟨h1, -⟩ := hok h
  have hS := scaleQ_pos h1
  rw [← portValue_encodeResponse_val hok h, numOf, portValue, div_mul_cancel₀ _ hS.ne']

/-- `res` and `code` carry the same information (R125). -/
theorem encodeResponse_res_eq_iff (y : Sample) :
    (encodeResponse u x).res = (encodeResponse u y).res ↔ (encodeResponse u x).code = (encodeResponse u y).code := by
  rw [← BitVec.toInt_inj, ← BitVec.toInt_inj, encodeResponse_res_toInt hok h, encodeResponse_res_toInt hok h,
    encodeResponse_code_toInt hok h, encodeResponse_code_toInt hok h, residualNum_inj]

/-- The residual is an odd multiple of `2^15`, so it is not 0 (R125). -/
theorem encodeResponse_res_ne_zero : (encodeResponse u x).res ≠ 0 := by
  obtain ⟨h1, -⟩ := hok h
  have hodd := levelMax_odd h1
  have hres := encodeResponse_res_toInt hok h x
  intro h0
  rw [h0, BitVec.ofNat_eq_ofNat, BitVec.toInt_zero, residualNum, unity_eq] at hres
  omega

/-- An idle input at the held value: `code` and `val` of the rise (R126(b)). -/
theorem encodeResponse_idle_rise (hprev : portValue u.bits.toNat u.prev = sampleValue x)
    (hhi : sampleValue x + 2 / levelMax u.bits.toNat ≤ 1) :
    (encodeResponse u x).code.toInt = 2 ^ (u.bits.toNat - 1) ∧
      portValue u.bits.toNat (encodeResponse u x).val = sampleValue x + 2 / levelMax u.bits.toNat := by
  obtain ⟨h1, -⟩ := hok h
  obtain ⟨hlo, -⟩ := prev_mem hok h
  rw [encodeResponse_code_eq hok h, portValue_encodeResponse_val hok h, hprev,
    encodeTransition_idle_rise h1 (hprev ▸ hlo) hhi]
  exact ⟨rfl, rfl⟩

/-- An idle input one spacing below the held value: `code` and `val` of the fall (R126(b)). -/
theorem encodeResponse_idle_fall
    (hprev : portValue u.bits.toNat u.prev = sampleValue x + 2 / levelMax u.bits.toNat)
    (hlo : -1 ≤ sampleValue x) (hhi : sampleValue x ≤ 1) :
    (encodeResponse u x).code.toInt = 2 ^ (u.bits.toNat - 1) - 1 ∧
      portValue u.bits.toNat (encodeResponse u x).val = sampleValue x := by
  obtain ⟨h1, -⟩ := hok h
  rw [encodeResponse_code_eq hok h, portValue_encodeResponse_val hok h, hprev,
    encodeTransition_idle_fall h1 hlo hhi]
  exact ⟨rfl, rfl⟩

end EncodePorts

/-- A stream advanced twice is the stream it was when PREV is back (R24, R25). -/
theorem advanceStream_twice_eq {u : StreamRegs} {k l : Int} (h : (advanceStream (advanceStream u k) l).prev = u.prev) :
    advanceStream (advanceStream u k) l = u := congrArg (fun p => { u with prev := p }) h

/-! ### The range of the codec's outputs (R124(a), R145) -/

/-- The response's `val` is within `[-S(b), S(b)]` for its own `b`. -/
def valWithinOne (r : Response) : Prop := -(scale r.b.toNat) ≤ r.val.toInt ∧ r.val.toInt ≤ scale r.b.toNat

/-- A fault answers `val = 0` with `b = 0` (R207). -/
theorem valWithinOne_fault (c : ErrCode) : valWithinOne (faultResponse c) := by
  have hzero : -(scale 0) ≤ 0 ∧ 0 ≤ scale 0 := by decide
  exact hzero

/-- A response that reports the PREV of a stream in range is in range. -/
theorem valWithinOne_of_prev {u : StreamRegs} {r : Response} (hok : streamOk u) (h : u.active = true)
    (hb : r.b = u.bits) (hval : r.val = u.prev) : valWithinOne r := by
  obtain ⟨-, -, hlo, hhi⟩ := hok h
  rw [valWithinOne, hb, hval]
  exact ⟨hlo, hhi⟩

end Sys2Proof.Machine

namespace Sys2Proof

open Machine

/-- Settles O26: the port and PREV carry the clipped sample's numerator. -/
theorem encfOpensTheStream : Obligations.EncfOpensTheStream := by
  unfold Obligations.EncfOpensTheStream
  refine fun x s => ⟨wordRuns_of_decode (decode_encf_word x), fun h0 => ?_, fun h0 h =>
    ⟨_, firstNum_toPort (one_le_of_ne_zero h0) h x, exec_encf_configured x h0⟩⟩
  rw [exec_encf_unconfigured x h0, raiseFault_eq]
  rfl

/-- Settles O27: the ports carry the integer forms of R123, which are the rational steps over `S(b)`. -/
theorem encnIsTheSixSteps : Obligations.EncnIsTheSixSteps := by
  unfold Obligations.EncnIsTheSixSteps
  refine fun x s hok => ⟨wordRuns_of_decode (decode_encn_word x), fun h => ?_, fun h =>
    ⟨_, exec_encn_open x h, rfl, rfl, rfl, encodeResponse_code_eq hok h x, encodeResponse_res_eq hok h x,
      encodeResponse_val_eq hok h x⟩⟩
  rw [exec_encn_closed x h, raiseFault_eq]
  rfl

/-- Settles O28: the residual's numerator is an odd multiple of `2^15` that determines the code. -/
theorem encnResidualGridNeverZero : Obligations.EncnResidualGridNeverZero := by
  unfold Obligations.EncnResidualGridNeverZero
  intro x y s hok h
  obtain ⟨h1, -⟩ := hok h
  obtain ⟨hk, hk'⟩ := encodeIndex_mem hok h x
  have hodd := levelMax_odd h1
  have hcode := encodeResponse_code_toInt hok h x
  refine ⟨_, _, exec_encn_open x h, exec_encn_open y h, ?_, by omega, by omega, by omega,
    encodeResponse_res_ne_zero hok h x, encodeResponse_res_eq_iff hok h x y⟩
  rw [encodeResponse_res_toInt hok h, hcode, residualNum, unity_eq]
  norm_num

/-- Settles O29: the ports carry the rational transition, whose error is the quantizer's, doubled. -/
theorem encoderTracksWithinOneSpacing : Obligations.EncoderTracksWithinOneSpacing := by
  unfold Obligations.EncoderTracksWithinOneSpacing
  intro x s hok h
  obtain ⟨h1, -⟩ := hok h
  refine ⟨_, exec_encn_open x h, fun hx hr => ?_⟩
  rw [portValue_encodeResponse_res hok h] at hr
  rw [portValue_encodeResponse_val hok h]
  exact abs_recon_sub_le h1 hx hr

/-- Settles O30: the rise, then the fall, on a stream whose PREV ends where it began. -/
theorem encoderIdlePatternHasPeriodTwo : Obligations.EncoderIdlePatternHasPeriodTwo := by
  unfold Obligations.EncoderIdlePatternHasPeriodTwo
  intro x s hok h hprev hhi
  obtain ⟨h1, -⟩ := hok h
  obtain ⟨hlo, hle⟩ := prev_mem hok h
  have hok' := streamOk_advanceStream (encodeIndex s.enc x) h hok
  obtain ⟨hcode, hval⟩ := encodeResponse_idle_rise hok h x hprev hhi
  obtain ⟨hcode', hval'⟩ := encodeResponse_idle_fall hok' h x hval (hprev ▸ hlo) (hprev ▸ hle)
  exact ⟨_, _, _, _, exec_encn_advances x h, exec_encn_advances x h, List.append_assoc .., hcode, hval, hcode',
    advanceStream_twice_eq (eq_of_portValue_eq h1 (hval'.trans hprev.symm))⟩

/-- Settles O31: the rational transition at a rail, on the ports. -/
theorem encoderOverloadReachesTheRail : Obligations.EncoderOverloadReachesTheRail := by
  unfold Obligations.EncoderOverloadReachesTheRail
  intro x s hok h
  obtain ⟨h1, -⟩ := hok h
  obtain ⟨hlo, hhi⟩ := prev_mem hok h
  have hcode := encodeResponse_code_eq hok h x
  have hval := encodeResponse_val_eq hok h x
  refine ⟨_, exec_encn_open x h, fun hx => ?_, fun hx => ?_⟩
  · rw [encodeTransition_overload_up h1 hlo hx] at hcode hval
    rw [numOf, one_mul] at hval
    exact ⟨hcode, by exact_mod_cast hval⟩
  · rw [encodeTransition_overload_down h1 hhi hx] at hcode hval
    rw [numOf, neg_one_mul] at hval
    exact ⟨hcode, by exact_mod_cast hval⟩

/-- Settles O46: each of the four raises a fault, or answers the PREV of a stream that meets (I2), (I3) of R31. -/
theorem codecOutputsStayWithinOne : Obligations.CodecOutputsStayWithinOne := by
  unfold Obligations.CodecOutputsStayWithinOne
  rintro i s ⟨hcfg, henc, hdec⟩ hi
  cases i with
  | encf x =>
    by_cases h : s.cfgBits = 0
    · exact ⟨_, _, exec_encf_unconfigured x h, rfl, valWithinOne_fault _⟩
    · exact ⟨_, _, exec_encf_configured x h, rfl, valWithinOne_of_prev (streamOk_openStream x h hcfg) rfl rfl rfl⟩
  | encn x =>
    cases h : s.enc.active with
    | false => exact ⟨_, _, exec_encn_closed x h, rfl, valWithinOne_fault _⟩
    | true =>
      exact ⟨_, _, exec_encn_open x h, rfl,
        valWithinOne_of_prev (streamOk_advanceStream (encodeIndex s.enc x) h henc) h rfl rfl⟩
  | decf x =>
    by_cases h : s.cfgBits = 0
    · exact ⟨_, _, exec_decf_unconfigured x h, rfl, valWithinOne_fault _⟩
    · exact ⟨_, _, exec_decf_configured x h, rfl, valWithinOne_of_prev (streamOk_openStream x h hcfg) rfl rfl rfl⟩
  | decn k =>
    cases h : s.dec.active with
    | false => exact ⟨_, _, exec_decn_closed k h, rfl, valWithinOne_fault _⟩
    | true =>
      by_cases hk : (k : Int) ≤ levelMax s.dec.bits.toNat
      · exact ⟨_, _, exec_decn_open k h hk, rfl, valWithinOne_of_prev (streamOk_advanceStream k h hdec) h rfl rfl⟩
      · exact ⟨_, _, exec_decn_outOfRange k h (not_le.1 hk), rfl, valWithinOne_fault _⟩
  | cfg _ | qnt _ | qnt1 _ | endUnits _ _ | stat => simp [unitOf] at hi

/-- Settles O39: the opened stream replaces the unit's registers, and the response does not read them. -/
theorem firstCommandsForgetTheUnit : Obligations.FirstCommandsForgetTheUnit := by
  unfold Obligations.FirstCommandsForgetTheUnit
  exact fun x s u h =>
    ⟨(exec_encf_configured x (s := { s with enc := u }) h).trans (exec_encf_configured x h).symm,
      (exec_decf_configured x (s := { s with dec := u }) h).trans (exec_decf_configured x h).symm⟩

end Sys2Proof

/-! SUPPORT. The DPCM decoder (spec/42_dpcm_decoder.md R140 to R144): what the ports of DECN carry, what a wrong
code does to them, and the decode stream that follows an encode stream. -/

namespace Sys2Proof.Machine

/-! ### DECN's ports (R141, R144) -/

/-- `M(b)` as a natural number (R10). -/
theorem levelMax_eq_natCast (b : Nat) : levelMax b = ((2 ^ b - 1 : Nat) : Int) := by simp [levelMax]

/-- A code above `2^b - 1` is above `M(b)` (R205). -/
theorem levelMax_lt_natCast {b k : Nat} (h : 2 ^ b - 1 < k) : levelMax b < k := by
  rw [levelMax_eq_natCast]
  exact Int.ofNat_lt.2 h

/-- Two codes' residuals are `4/M` apart per index (R144). -/
theorem residual_sub (b : Nat) (k k' : Int) : lvl b k' * 2 - lvl b k * 2 = 4 * ((k' : ℚ) - k) / levelMax b := by
  unfold lvl
  ring

section DecodePorts

variable {u : StreamRegs} (hok : streamOk u) (h : u.active = true)
include hok h

/-- `res` is `num_b(dq)`, for a code in range (R141 step 4). -/
theorem nextResponse_res_eq {k : Int} (hk : 0 ≤ k) (hk' : k ≤ levelMax u.bits.toNat) :
    ((nextResponse u k).res.toInt : ℚ) = numOf u.bits.toNat
      (decodeTransition u.bits.toNat (portValue u.bits.toNat u.prev) k).dq := by
  obtain ⟨h1, h16, -⟩ := hok h
  exact (congrArg Int.cast (residualNum_toPort h16 hk hk')).trans (residualNum_cast h1 k)

/-- `val` is `num_b(rec)` (R141 step 5). -/
theorem nextResponse_val_eq (k : Int) : ((nextResponse u k).val.toInt : ℚ) = numOf u.bits.toNat
    (decodeTransition u.bits.toNat (portValue u.bits.toNat u.prev) k).recon := by
  obtain ⟨h1, h16, -⟩ := hok h
  exact (congrArg Int.cast (clipScaled_toPort h1 h16 _)).trans (reconNum_cast h1 u.prev.toInt k)

/-- Where the clip does not act, DECN adds its residual to PREV (R141 step 5). -/
theorem portValue_nextResponse_unclipped {k : Int} (hk : 0 ≤ k) (hk' : k ≤ levelMax u.bits.toNat)
    (hsum : |portValue u.bits.toNat u.prev + portValue u.bits.toNat (nextResponse u k).res| ≤ 1) :
    portValue u.bits.toNat (nextResponse u k).val = portValue u.bits.toNat u.prev + lvl u.bits.toNat k * 2 := by
  rw [portValue_nextResponse_res hok h hk hk'] at hsum
  obtain ⟨hlo, hhi⟩ := abs_le.1 hsum
  exact (portValue_advanceStream hok h k).trans (clip_of_mem hlo hhi)

end DecodePorts

/-! ### A decode stream fed an encode stream's codes (R143) -/

/-- What R143 says the decoder's response has in common with the encoder's. -/
def sharedPorts (r : Response) : Depth × PortWord × PortWord := (r.b, r.res, r.val)

/-- A FIRST command answers the stream it opens, with the sentinel 0 in `res` (R120, R140). -/
theorem sharedPorts_firstResponse (c : Depth) (x : Sample) :
    sharedPorts (firstResponse c x) = ((openStream c x).bits, 0, (openStream c x).prev) := rfl

/-- DECN of the code that an encoder's response carries. -/
def decodeCommand (r : Response) : Instr := .decn r.code.toNat

/-- An index of an open stream is not negative, so the signed `code` port is DECN's unsigned operand. -/
theorem encodeResponse_code_toNat {u : StreamRegs} (hok : streamOk u) (h : u.active = true) (x : Sample) :
    ((encodeResponse u x).code.toNat : Int) = encodeIndex u x := by
  obtain ⟨hk, -⟩ := encodeIndex_mem hok h x
  have hcode := encodeResponse_code_toInt hok h x
  have hmsb : (encodeResponse u x).code.msb = false := by
    rw [BitVec.msb_eq_toInt, hcode]
    exact decide_eq_false (not_lt.2 hk)
  rwa [BitVec.toInt_eq_toNat_of_msb hmsb] at hcode

/-- First samples that clip alike open equal streams (R120, R140). -/
theorem openStream_eq_of_clip_eq {c : Depth} (h0 : c ≠ 0) (h : c.toNat ≤ Config.BMAX) {x x' : Sample}
    (hclip : clip (sampleValue x') (-1) 1 = clip (sampleValue x) (-1) 1) : openStream c x' = openStream c x := by
  have hprev : (openStream c x').prev = (openStream c x).prev :=
    eq_of_portValue_eq (one_le_of_ne_zero h0)
      ((portValue_openStream h0 h x').trans (hclip.trans (portValue_openStream h0 h x).symm))
  exact congrArg (StreamRegs.mk true c) hprev

/-- DECN of an ENCN's code, on a decoder that holds what the encoder held, answers the same residual and value and
leaves the decoder with what the encoder holds now (R143). -/
theorem exec_decodeCommand {s d : State} (hok : streamOk s.enc) (h : s.enc.active = true) (hd : d.dec = s.enc)
    (x : Sample) : exec (decodeCommand (encodeResponse s.enc x)) d =
      .next (respond (nextResponse s.enc (encodeIndex s.enc x))
        { d with dec := advanceStream s.enc (encodeIndex s.enc x) }) := by
  obtain ⟨-, hk⟩ := encodeIndex_mem hok h x
  rw [decodeCommand, exec_decn_advances, encodeResponse_code_toNat hok h, hd]
  · rw [hd, h]
  · rwa [encodeResponse_code_toNat hok h, hd]

/-- The decoder follows the encoder through every sequence of samples, from equal streams on. -/
theorem execAll_decodeCommands (xs : List Sample) {s d : State} (hok : streamOk s.enc) (h : s.enc.active = true)
    (hd : d.dec = s.enc) :
    ∃ t u rs qs, execAll (xs.map .encn) s = .next t ∧ t.responses = s.responses ++ rs ∧ rs.length = xs.length ∧
      execAll (rs.map decodeCommand) d = .next u ∧ u.responses = d.responses ++ qs ∧
      (∀ q ∈ qs, q.st = 0) ∧ qs.map sharedPorts = rs.map sharedPorts := by
  induction xs generalizing s d with
  | nil => exact ⟨s, d, [], [], rfl, (List.append_nil _).symm, rfl, rfl, (List.append_nil _).symm, nofun, rfl⟩
  | cons x xs ih =>
    obtain ⟨t, u, rs, qs, hrun, hresp, hlen, hrun', hresp', hst, hports⟩ :=
      ih (s := respond (encodeResponse s.enc x) { s with enc := advanceStream s.enc (encodeIndex s.enc x) })
        (d := respond (nextResponse s.enc (encodeIndex s.enc x))
          { d with dec := advanceStream s.enc (encodeIndex s.enc x) })
        (streamOk_advanceStream _ h hok) h rfl
    refine ⟨t, u, encodeResponse s.enc x :: rs, nextResponse s.enc (encodeIndex s.enc x) :: qs,
      (execAll_cons (exec_encn_advances x h) _).trans hrun, ?_, congrArg (· + 1) hlen,
      (execAll_cons (exec_decodeCommand hok h hd x) _).trans hrun', ?_, List.forall_mem_cons.2 ⟨rfl, hst⟩,
      congrArg (_ :: ·) hports⟩
    · rw [hresp, respond_responses, List.append_assoc, List.singleton_append]
    · rw [hresp', respond_responses, List.append_assoc, List.singleton_append]

end Sys2Proof.Machine

namespace Sys2Proof

open Machine

/-- Settles O34: the port and PREV carry the clipped sample's numerator. -/
theorem decfOpensTheStream : Obligations.DecfOpensTheStream := by
  unfold Obligations.DecfOpensTheStream
  refine fun x s => ⟨wordRuns_of_decode (decode_decf_word x), fun h0 => ?_, fun h0 h =>
    ⟨_, firstNum_toPort (one_le_of_ne_zero h0) h x, exec_decf_configured x h0⟩⟩
  rw [exec_decf_unconfigured x h0, raiseFault_eq]
  rfl

/-- Settles O35: the two faults in R206's order, else the ports carry the integer forms of R142, which are the rational
steps over `S(b)`. -/
theorem decnIsStepsFourToSix : Obligations.DecnIsStepsFourToSix := by
  unfold Obligations.DecnIsStepsFourToSix
  refine fun k s hok => ⟨fun hk => ?_, fun h => ?_, fun h hk => ?_, fun h hk => ?_⟩
  · have hdecode : decode (encode (.decn k)) = .ok (.decn k) := decode_encode (decide_eq_true hk)
    exact wordRuns_of_decode hdecode
  · rw [exec_decn_closed k h, raiseFault_eq]
    rfl
  · rw [exec_decn_outOfRange k h (levelMax_lt_natCast hk), raiseFault_eq]
    rfl
  · have hk' := natCast_le_levelMax hk
    exact ⟨_, exec_decn_open k h hk', rfl, rfl, rfl, rfl,
      nextResponse_res_eq hok h (Int.natCast_nonneg k) hk', nextResponse_val_eq hok h k⟩

/-- Settles O37: unclipped, each output is PREV and its code's residual. -/
theorem wrongCodeShiftsTheReconstruction : Obligations.WrongCodeShiftsTheReconstruction := by
  unfold Obligations.WrongCodeShiftsTheReconstruction
  intro k k' s hok h hk hk'
  have hle := natCast_le_levelMax hk
  have hle' := natCast_le_levelMax hk'
  refine ⟨_, _, exec_decn_open k h hle, exec_decn_open k' h hle', fun hsum hsum' => ?_⟩
  rw [portValue_nextResponse_unclipped hok h (Int.natCast_nonneg k) hle hsum,
    portValue_nextResponse_unclipped hok h (Int.natCast_nonneg k') hle' hsum', add_sub_add_left_eq_sub]
  exact residual_sub s.dec.bits.toNat k k'

/-- Settles O50: equal streams are opened, and by induction on the samples they stay equal. -/
theorem decoderReproducesTheEncoder : Obligations.DecoderReproducesTheEncoder := by
  unfold Obligations.DecoderReproducesTheEncoder
  intro x x' xs s d h0 h16 hcfg hclip
  have hopen : openStream d.cfgBits x' = openStream s.cfgBits x := hcfg ▸ openStream_eq_of_clip_eq h0 h16 hclip
  have hports : sharedPorts (firstResponse d.cfgBits x') = sharedPorts (firstResponse s.cfgBits x) := by
    rw [sharedPorts_firstResponse, sharedPorts_firstResponse, hopen]
  obtain ⟨t, u, rs, qs, hrun, hresp, hlen, hrun', hresp', hst, hrest⟩ :=
    execAll_decodeCommands xs (s := respond (firstResponse s.cfgBits x) { s with enc := openStream s.cfgBits x })
      (d := respond (firstResponse d.cfgBits x') { d with dec := openStream d.cfgBits x' })
      (streamOk_openStream x h0 h16) rfl hopen
  refine ⟨t, u, firstResponse s.cfgBits x, rs, firstResponse d.cfgBits x', qs,
    (execAll_cons (exec_encf_configured x h0) _).trans hrun, ?_, hlen,
    (execAll_cons (exec_decf_configured x' (hcfg ▸ h0)) _).trans hrun', ?_, List.forall_mem_cons.2 ⟨rfl, hst⟩,
    congrArg₂ List.cons hports hrest⟩
  · rw [hresp, respond_responses, List.append_assoc, List.singleton_append]
  · rw [hresp', respond_responses, List.append_assoc, List.singleton_append]

end Sys2Proof

/-! SUPPORT. The control commands (spec/43_control.md R160 to R163): the words with reserved operand bits, the units that
END leaves alone, and the status image as a number. -/

namespace Sys2Proof.Machine

/-! ### Words whose operand is checked (R73, R201) -/

section Check

variable {w : CmdWord} {i : Instr} {e : DecodeError} {legal : Prop} [Decidable legal]
  (hd : decode w = if legal then .ok i else .error e)
include hd

/-- A word whose operand passes its opcode's check runs as the command. -/
theorem wordRuns_of_check (h : legal) : wordRuns w i := wordRuns_of_decode (hd.trans (if_pos h))

/-- A word whose operand fails its opcode's check raises ERR_ILLEGAL and nothing else (R73(b), R207). -/
theorem step_illegal_of_check (h : ¬ legal) {s : State} {rest : List HostInput} (hs : s.inputs = .command w :: rest) :
    step s = .next (afterFault 1 { s with inputs := rest }) :=
  (step_illegal hs (hd.trans (if_neg h))).trans (congrArg _ (raiseFault_eq .illegal _))

end Check

/-! ### END's two units (R161) -/

/-- Closing the encoder first, END still leaves alone a decoder that it does not select or that is closed already. -/
theorem closeDecoder_closeEncoder_dec_of_kept (e : Bool) {d : Bool} {s : State}
    (h : d = false ∨ s.dec.active = false) :
    (closeDecoder d (closeEncoder e s)).dec = s.dec := by
  rw [closeDecoder_dec_of_kept (closeEncoder e s) d (by rwa [closeEncoder_dec]), closeEncoder_dec]

/-! ### The status image (R163) -/

theorem shownDepth_toNat (u : StreamRegs) : (shownDepth u).toNat = if u.active then u.bits.toNat else 0 := by
  unfold shownDepth
  split <;> rfl

/-- The image's fields, each at its bit of `IMAGE`. -/
theorem statusImage_toNat (s : State) : (statusImage s).toNat =
    s.cfgBits.toNat + 2 ^ 5 * s.enc.active.toNat + 2 ^ 6 * s.dec.active.toNat + 2 ^ 7 * s.err.toNat +
      2 ^ 12 * (shownDepth s.enc).toNat + 2 ^ 17 * (shownDepth s.dec).toNat := by
  simp only [statusImage, concat_toNat, BitVec.toNat_ofBool]
  ring

end Sys2Proof.Machine

namespace Sys2Proof

open Machine

/-- Settles O40: the command's two cases, and the decoder's check of the operand. -/
theorem cfgStoresALegalDepthOnly : Obligations.CfgStoresALegalDepthOnly := by
  unfold Obligations.CfgStoresALegalDepthOnly
  refine ⟨fun bits s => ⟨fun h => exec_cfg_legal s (by simp only [Config.BMAX]; omega), fun h => ?_⟩,
    fun op hop => wordRuns_of_check (decode_cfg_word op) hop,
    fun op s rest hs hop => step_illegal_of_check (decode_cfg_word op) (not_lt.2 hop) hs⟩
  rw [exec_cfg_refused s h, raiseFault_eq]
  rfl

/-- Settles O41: closing a unit writes its own registers only, and none where it is not selected or closed already. -/
theorem endClosesTheSelectedUnits : Obligations.EndClosesTheSelectedUnits := by
  unfold Obligations.EndClosesTheSelectedUnits
  refine ⟨fun e d s => ⟨_, exec_end e d s, by simp, by simp, fun h => ?_, closeDecoder_closeEncoder_dec_of_kept e,
      by simp, by simp, by simp, by simp; rfl⟩,
    fun op hop => wordRuns_of_check (decode_end_word op) hop,
    fun op s rest hs hop => step_illegal_of_check (decode_end_word op) (not_lt.2 hop) hs⟩
  rw [respond_enc, closeDecoder_enc, closeEncoder_enc_of_kept s e h]

/-- Settles O42: STAT's `val` is the image, zero-extended, whose number is the sum of its fields. -/
theorem statAnswersTheStatusImage : Obligations.StatAnswersTheStatusImage := by
  unfold Obligations.StatAnswersTheStatusImage
  refine ⟨wordRuns_of_check (decode_stat_word 0) Nat.zero_lt_one, fun op s rest hs hop =>
    step_illegal_of_check (decode_stat_word op) (fun hlt => hop (BitVec.eq_of_toNat_eq (Nat.lt_one_iff.1 hlt))) hs,
    fun s => ⟨(statusImage s).setWidth 32, exec_stat s, ?_⟩⟩
  rw [BitVec.toNat_setWidth_of_le (by decide), statusImage_toNat, shownDepth_toNat, shownDepth_toNat]

end Sys2Proof

/-! SUPPORT. The Evaluator (spec/50_host_collaborators.md R185, R187): the mean square of a sequence, when it is zero,
and the decibels of a ratio. -/

namespace Sys2Proof.Machine

/-! ### The mean square -/

/-- The mean times the length is the sum of the squares. -/
theorem meanSquare_mul_length {xs : List ℚ} (h : xs ≠ []) : meanSquare xs * xs.length = (xs.map (· ^ 2)).sum := by
  have hlen : (xs.length : ℚ) ≠ 0 := Nat.cast_ne_zero.2 (mt List.length_eq_zero_iff.1 h)
  simp only [meanSquare, div_mul_cancel₀ _ hlen, sq]

theorem meanSquare_nonneg (xs : List ℚ) : 0 ≤ meanSquare xs :=
  div_nonneg (List.sum_nonneg (List.forall_mem_map.2 fun x _ => mul_self_nonneg x)) (Nat.cast_nonneg _)

/-- Squares have no cancellation: only silence has mean square 0. -/
theorem meanSquare_eq_zero_iff {xs : List ℚ} (h : xs ≠ []) : meanSquare xs = 0 ↔ ∀ x ∈ xs, x = 0 := by
  constructor
  · intro h0 x hx
    have hsum : (xs.map (· ^ 2)).sum = 0 := by rw [← meanSquare_mul_length h, h0, zero_mul]
    have hsq : x ^ 2 = 0 := List.all_zero_of_le_zero_le_of_sum_eq_zero
      (List.forall_mem_map.2 fun y _ => sq_nonneg y) hsum (List.mem_map_of_mem hx)
    exact pow_eq_zero_iff two_ne_zero |>.1 hsq
  · intro hzero
    have hsum : (xs.map fun x => x * x).sum = 0 :=
      List.sum_eq_zero (List.forall_mem_map.2 fun x hx => mul_eq_zero_of_left (hzero x hx) x)
    rw [meanSquare, hsum, zero_div]

/-! ### The distortion -/

section Distortion

variable {original distorted : List ℚ} (hlen : original.length = distorted.length) (hne : original ≠ [])

include hlen

theorem length_differences : (List.zipWith (· - ·) original distorted).length = original.length := by
  rw [List.length_zipWith, ← hlen, min_self]

/-- Sequences of one length are equal where every difference is 0. -/
theorem differences_eq_zero_iff :
    (∀ x ∈ List.zipWith (· - ·) original distorted, x = 0) ↔ original = distorted := by
  rw [← List.forall_iff_forall_mem, List.forall_zipWith hlen]
  simp only [sub_eq_zero, List.forall₂_eq_eq_eq]

include hne

theorem differences_ne_nil : List.zipWith (· - ·) original distorted ≠ [] := fun h =>
  hne (List.length_eq_zero_iff.1 ((length_differences hlen).symm.trans (congrArg List.length h)))

theorem meanSquareError_mul_length : meanSquareError original distorted * original.length =
    ((List.zipWith (· - ·) original distorted).map (· ^ 2)).sum := by
  rw [← meanSquare_mul_length (differences_ne_nil hlen hne), length_differences hlen, meanSquareError]

theorem meanSquareError_eq_zero_iff : meanSquareError original distorted = 0 ↔ original = distorted :=
  (meanSquare_eq_zero_iff (differences_ne_nil hlen hne)).trans (differences_eq_zero_iff hlen)

/-- What `evaluate` answers within its precondition, by the three cases of `snr_db` (R185, U6). -/
theorem evaluate_answers : ∃ e, evaluate original distorted = some e ∧ e.mse = meanSquareError original distorted ∧
    (original = distorted → e.snr = some .infinite) ∧
    (original ≠ distorted → meanSquare original = 0 → e.snr = none) ∧
    (original ≠ distorted → meanSquare original ≠ 0 →
      e.snr = some (.tenLog10 (meanSquare original / meanSquareError original distorted))) := by
  simp only [ne_eq, ← meanSquareError_eq_zero_iff hlen hne]
  exact ⟨_, if_pos ⟨hlen, hne⟩, rfl, fun h => if_pos h, fun h hsilent => (if_neg h).trans (if_pos hsilent),
    fun h hsound => (if_neg h).trans (if_neg hsound)⟩

end Distortion

/-- Outside its precondition `evaluate` has no answer (U2, U15). -/
theorem evaluate_refused {original distorted : List ℚ} (h : original.length ≠ distorted.length ∨ original = []) :
    evaluate original distorted = none :=
  if_neg fun ⟨hlen, hne⟩ => h.elim (· hlen) hne

/-! ### Decibels -/

/-- `10·log10` of a ratio of positive numbers undoes `10^(·/10)` (R185). -/
theorem ten_rpow_decibels_mul {a m : ℚ} (ha : 0 < a) (hm : 0 < m) :
    (10 : ℝ) ^ (10 * Real.logb 10 ((a / m : ℚ) : ℝ) / 10) * (m : ℝ) = (a : ℝ) := by
  have hratio : (0 : ℝ) < ((a / m : ℚ) : ℝ) := Rat.cast_pos.2 (div_pos ha hm)
  rw [mul_div_cancel_left₀ _ (by norm_num), Real.rpow_logb (by norm_num) (by norm_num) hratio, ← Rat.cast_mul,
    div_mul_cancel₀ _ hm.ne']

end Sys2Proof.Machine

namespace Sys2Proof

open Machine

/-- Settles O59: `evaluate_answers`, with the ratio positive where neither mean square is 0. -/
theorem evaluatorMeasuresDistortionInDecibels : Obligations.EvaluatorMeasuresDistortionInDecibels := by
  unfold Obligations.EvaluatorMeasuresDistortionInDecibels
  refine fun original distorted => ⟨evaluate_refused, fun hlen hne => ?_⟩
  obtain ⟨e, he, hmse, hequal, hsilent, hsound⟩ := evaluate_answers hlen hne
  have hzero := meanSquareError_eq_zero_iff hlen hne
  refine ⟨e, he, ?_, ?_, fun h => ⟨.infinite, hequal h, fun _ => Iff.rfl⟩, hsilent, fun h h0 => ?_⟩
  · rw [hmse, meanSquareError_mul_length hlen hne]
  · rw [hmse, hzero]
  · have horiginal : 0 < meanSquare original := (meanSquare_nonneg _).lt_of_ne' h0
    have herror : 0 < meanSquareError original distorted := (meanSquare_nonneg _).lt_of_ne' (mt hzero.1 h)
    refine ⟨_, _, hsound h h0, fun _ => Iff.rfl, ?_⟩
    rw [hmse]
    exact ten_rpow_decibels_mul horiginal herror

end Sys2Proof

/-! SUPPORT. Which fault a command raises (spec/60_exceptions.md R201 to R207), said once: `commandFault` for a command,
`wordFault` for a presented word, and what a step that raises it, or none, does to the flags and the responses. -/

namespace Sys2Proof.Machine

/-! ### The fault of a command and of a word -/

/-- The fault a command raises in a state (R202 to R205); DECN's two checks stand in the order of R206. -/
def commandFault (s : State) : Instr → Option ErrCode
  | .cfg bits => if bits < 1 ∨ bits > Config.BMAX then some .param else none
  | .qnt _ | .encf _ | .decf _ => if s.cfgBits = 0 then some .nocfg else none
  | .encn _ => if s.enc.active = false then some .seq else none
  | .decn k =>
    if s.dec.active = false then some .seq
    else if levelMax s.dec.bits.toNat < k then some .code else none
  | .qnt1 _ | .endUnits _ _ | .stat => none

/-- The fault a presented word raises in a state: the decoder's check comes first (R201, R206). -/
def wordFault (s : State) (w : CmdWord) : Option ErrCode :=
  match decode w with
  | .ok i => commandFault s i
  | .error _ => some .illegal

/-- The status number of a fault, 0 for none (R75). -/
def faultStatus (f : Option ErrCode) : Nat := f.elim 0 errNumber

@[simp] theorem faultStatus_none : faultStatus none = 0 := rfl

@[simp] theorem faultStatus_some (c : ErrCode) : faultStatus (some c) = errNumber c := rfl

/-- The number of a check's fault, or of the checks after it. -/
@[simp] theorem faultStatus_ite (p : Prop) [Decidable p] (f g : Option ErrCode) :
    faultStatus (if p then f else g) = if p then faultStatus f else faultStatus g := apply_ite faultStatus p f g

theorem wordFault_of_ok {w : CmdWord} {i : Instr} (h : decode w = .ok i) (s : State) :
    wordFault s w = commandFault s i := by
  simp only [wordFault, h]

theorem wordFault_of_error {w : CmdWord} {e : DecodeError} (h : decode w = .error e) (s : State) :
    wordFault s w = some .illegal := by
  simp only [wordFault, h]

/-- What waits on the inputs is not read. -/
theorem commandFault_withInputs (s : State) (rest : List HostInput) (i : Instr) :
    commandFault { s with inputs := rest } i = commandFault s i := by
  cases i <;> rfl

/-- No command raises ERR_ILLEGAL: it is a fault of words (R201). -/
theorem commandFault_ne_illegal (s : State) (i : Instr) : commandFault s i ≠ some .illegal := by
  cases i with
  | decn k => rw [commandFault]; split_ifs <;> simp
  | _ => simp [commandFault]

/-- ERR_NOCFG is the fault of QNT, ENCF and DECF without a depth, and of nothing else (R203). -/
theorem commandFault_eq_nocfg_iff {s : State} {i : Instr} : commandFault s i = some .nocfg ↔
    s.cfgBits = 0 ∧ ∃ x, i = .qnt x ∨ i = .encf x ∨ i = .decf x := by
  cases i with
  | decn k => rw [commandFault]; split_ifs <;> simp
  | _ => simp [commandFault]

/-- ERR_SEQ is the fault of a NEXT command on a closed unit, and of nothing else (R204). -/
theorem commandFault_eq_seq_iff {s : State} {i : Instr} : commandFault s i = some .seq ↔
    (s.enc.active = false ∧ ∃ x, i = .encn x) ∨ (s.dec.active = false ∧ ∃ k, i = .decn k) := by
  cases i <;> simp [commandFault]

/-- ERR_ILLEGAL is the fault of the words whose number says so, in every state (R201). -/
theorem wordFault_eq_illegal_iff {s : State} {w : CmdWord} : wordFault s w = some .illegal ↔ isIllegalWord w := by
  rw [← decode_error_iff]
  cases hd : decode w with
  | ok i => simp [wordFault_of_ok hd, commandFault_ne_illegal]
  | error e => simp [wordFault_of_error hd]

/-! ### What a command with that fault does (R207) -/

/-- From `s` to `t` with response `r`: the entry of the fault, or with no fault a response with `st = 0` and the flags
as they were. -/
inductive Answers (s : State) : Option ErrCode → State → Response → Prop where
  | fault (c : ErrCode) : Answers s (some c) (raiseFault c s) (faultResponse c)
  | ok {t : State} {r : Response} (hst : r.st = 0) (herr : t.err = s.err) (hresp : t.responses = s.responses ++ [r]) :
      Answers s none t r

/-- A check and the rule behind it: the fault where the check applies, what the rest does where it does not. -/
theorem answers_of_check {s : State} {o : Host.Outcome State Fault Refusal} {c : ErrCode} {f : Option ErrCode}
    {p : Prop} [Decidable p] (hfault : p → o = .next (raiseFault c s))
    (hpass : ¬ p → ∃ t r, o = .next t ∧ Answers s f t r) :
    ∃ t r, o = .next t ∧ Answers s (if p then some c else f) t r := by
  split
  · next h => exact ⟨_, _, hfault h, .fault c⟩
  · next h => exact hpass h

/-- Every command completes by its fault. -/
theorem exec_answers (i : Instr) (s : State) : ∃ t r, exec i s = .next t ∧ Answers s (commandFault s i) t r := by
  cases i with
  | cfg bits =>
    exact answers_of_check (exec_cfg_refused s) fun h => ⟨_, _, exec_cfg_legal s h, .ok rfl rfl rfl⟩
  | qnt x =>
    exact answers_of_check (exec_qnt_unconfigured x) fun h => ⟨_, _, exec_qnt_configured x h, .ok rfl rfl rfl⟩
  | qnt1 x => exact ⟨_, _, exec_qnt1 x s, .ok (by unfold thresholdResponse; split <;> rfl) rfl rfl⟩
  | encf x =>
    exact answers_of_check (exec_encf_unconfigured x) fun h => ⟨_, _, exec_encf_configured x h, .ok rfl rfl rfl⟩
  | encn x =>
    refine answers_of_check (exec_encn_closed x) fun h => ?_
    exact ⟨_, _, exec_encn_open x (Bool.eq_true_of_not_eq_false h), .ok rfl rfl rfl⟩
  | decf x =>
    exact answers_of_check (exec_decf_unconfigured x) fun h => ⟨_, _, exec_decf_configured x h, .ok rfl rfl rfl⟩
  | decn k =>
    refine answers_of_check (exec_decn_closed k) fun h => ?_
    have hopen : s.dec.active = true := Bool.eq_true_of_not_eq_false h
    exact answers_of_check (exec_decn_outOfRange k hopen) fun hk =>
      ⟨_, _, exec_decn_open k hopen (not_lt.1 hk), .ok rfl rfl rfl⟩
  | endUnits e d => exact ⟨_, _, exec_end e d s, .ok rfl (by simp) (by simp; rfl)⟩
  | stat => exact ⟨_, _, exec_stat s, .ok rfl rfl rfl⟩

/-- Every presented word is answered by its fault, the word taken from the port. -/
theorem step_answers {s : State} {w : CmdWord} {rest : List HostInput} (hin : s.inputs = .command w :: rest) :
    ∃ t r, step s = .next t ∧ Answers { s with inputs := rest } (wordFault s w) t r := by
  cases hd : decode w with
  | ok i =>
    obtain ⟨t, r, ht, ha⟩ := exec_answers i { s with inputs := rest }
    rw [commandFault_withInputs] at ha
    exact ⟨t, r, (step_decoded hin hd).trans ht, wordFault_of_ok hd s ▸ ha⟩
  | error e => exact ⟨_, _, step_illegal hin hd, wordFault_of_error hd s ▸ Answers.fault .illegal⟩

namespace Answers

variable {s t : State} {f : Option ErrCode} {r : Response} {c : ErrCode}

theorem responses (h : Answers s f t r) : t.responses = s.responses ++ [r] := by
  cases h with
  | fault c => rfl
  | ok _ _ hresp => exact hresp

theorem st_toNat (h : Answers s f t r) : r.st.toNat = faultStatus f := by
  cases h with
  | fault c => cases c <;> rfl
  | ok hst _ _ => rw [hst]; rfl

/-- The status tells which fault was raised. -/
theorem st_eq_iff (h : Answers s f t r) : r.st = errStatus c ↔ f = some c := by
  cases h with
  | fault c' => cases c' <;> cases c <;> decide
  | ok hst _ _ => rw [hst]; cases c <;> decide

theorem eq_raiseFault (h : Answers s (some c) t r) : t = raiseFault c s := by
  cases h
  rfl

/-- A status other than 0 is at most 5 and comes with the fault entry of its number. -/
theorem eq_afterFault (h : Answers s f t r) (hst : r.st ≠ 0) : r.st.toNat ≤ 5 ∧ t = afterFault r.st.toNat s := by
  cases h with
  | fault c => cases c <;> exact ⟨by decide, rfl⟩
  | ok h0 _ _ => exact absurd h0 hst

theorem err_of_st_eq_zero (h : Answers s f t r) (hst : r.st = 0) : t.err = s.err := by
  cases h with
  | fault c => exact absurd hst (faultResponse_st_ne c)
  | ok _ herr _ => exact herr

/-- The flag of the fault is set and no other is written. -/
theorem err_eq (h : Answers s f t r) :
    t.err = if faultStatus f = 0 then s.err else s.err ||| BitVec.ofNat _ (2 ^ (faultStatus f - 1)) := by
  cases h with
  | fault c => cases c <;> rfl
  | ok _ herr _ => exact herr

/-- No flag is set after the command exactly when none was before and the command raised no fault. -/
theorem faultFree_iff (h : Answers s f t r) : faultFree t ↔ faultFree s ∧ r.st = 0 := by
  cases h with
  | fault c =>
    have hflag : ¬ faultFree (raiseFault c s) := by
      have hmask : errMask c ≠ 0 := by cases c <;> decide
      exact fun h0 => hmask (BitVec.or_eq_zero_iff.1 h0).2
    exact iff_of_false hflag fun h0 => faultResponse_st_ne c h0.2
  | ok hst herr _ => rw [faultFree, faultFree, herr, and_iff_left hst]

end Answers

/-! ### The order of the checks, read off a word's number (R206) -/

/-- The opcode number of a word that decodes (R72). -/
theorem opcodeNumber_of_decode {w : CmdWord} {i : Instr} (h : decode w = .ok i) :
    w.toNat / 65536 = (opcodeNumber i).toNat := by
  rw [← opcodeField_toNat, ← (encode_of_decode h).2, opcodeField_encode]

/-- The operand number of a word that decodes (R71). -/
theorem operandBits_of_decode {w : CmdWord} {i : Instr} (h : decode w = .ok i) :
    w.toNat % 65536 = (operandBits i).toNat := by
  rw [← operandField_toNat, ← (encode_of_decode h).2, operandField_encode]

theorem operandBits_cfg_toNat {bits : Nat} (h : (Instr.cfg bits).wellFormed = true) :
    (operandBits (.cfg bits)).toNat = bits := by
  have hbits : bits < 32 := by simpa [Instr.wellFormed] using h
  exact Nat.mod_eq_of_lt (hbits.trans (by norm_num))

theorem operandBits_decn_toNat {k : Nat} (h : (Instr.decn k).wellFormed = true) :
    (operandBits (.decn k)).toNat = k :=
  Nat.mod_eq_of_lt (of_decide_eq_true h)

/-- R206's order gives a word that decodes the number of its command's fault. -/
theorem faultByPriority_of_ok {w : CmdWord} {i : Instr} (h : decode w = .ok i) (s : State) :
    faultByPriority s w = faultStatus (commandFault s i) := by
  have hlegal : ¬ isIllegalWord w := by simp [← decode_error_iff, h]
  obtain ⟨hwf, -⟩ := encode_of_decode h
  rw [faultByPriority, if_neg hlegal, opcodeNumber_of_decode h, operandBits_of_decode h]
  cases i with
  | cfg bits =>
    rw [operandBits_cfg_toNat hwf]
    simp [opcodeNumber, commandFault, errNumber]
  | decn k =>
    rw [operandBits_decn_toNat hwf]
    simp only [commandFault, levelMax_eq_natCast, Nat.cast_lt]
    simp [opcodeNumber, errNumber]
  | qnt1 x => rfl
  | endUnits e d => rfl
  | stat => rfl
  | _ => simp [opcodeNumber, commandFault, errNumber]

/-- The order of R206 and its table, read off a word's number, give the number of the word's fault. -/
theorem faultByPriority_eq (s : State) (w : CmdWord) : faultByPriority s w = faultStatus (wordFault s w) := by
  cases hd : decode w with
  | ok i => rw [wordFault_of_ok hd, faultByPriority_of_ok hd]
  | error e => rw [wordFault_of_error hd, faultByPriority, if_pos ((decode_error_iff w).1 ⟨e, hd⟩)]; rfl

/-! ### Flags and statuses over a list of words (R208) -/

/-- The waiting words are answered in turn, and no flag is set at the end exactly when none was at the start and every
status was 0. -/
theorem run_faultFree_iff (ws : List CmdWord) {s : State} (hin : s.inputs = ws.map .command) :
    ∃ t rs, Host.Core.run Sys2Proof.core ws.length s = .next t ∧ t.responses = s.responses ++ rs ∧
      (faultFree t ↔ faultFree s ∧ ∀ r ∈ rs, r.st = 0) := by
  induction ws generalizing s with
  | nil => exact ⟨s, [], rfl, (List.append_nil _).symm, by simp⟩
  | cons w ws ih =>
    obtain ⟨t, r, hstep, ha⟩ := step_answers hin
    obtain ⟨_, -, hstep', htin, -⟩ := step_command hin
    cases hstep'.symm.trans hstep
    obtain ⟨u, rs, hrun, hresp, hiff⟩ := ih htin
    refine ⟨u, r :: rs, (run_succ hstep ws.length).trans hrun, ?_, ?_⟩
    · rw [hresp, ha.responses, List.append_assoc, List.singleton_append]
    · rw [hiff, ha.faultFree_iff, List.forall_mem_cons, and_assoc]

end Sys2Proof.Machine

namespace Sys2Proof

open Machine

/-- Settles O11: a step answers by the word's fault, which is ERR_ILLEGAL exactly for the illegal words. -/
theorem illegalWordRaisesErrIllegal : Obligations.IllegalWordRaisesErrIllegal := by
  unfold Obligations.IllegalWordRaisesErrIllegal
  intro s w rest hin
  obtain ⟨t, r, ht, ha⟩ := step_answers hin
  refine ⟨fun hw => ?_, fun hw => ⟨t, r, ht, ha.responses, fun h1 => hw ?_⟩⟩
  · rw [wordFault_eq_illegal_iff.2 hw] at ha
    rw [ht, ha.eq_raiseFault, raiseFault_eq]
    rfl
  · exact wordFault_eq_illegal_iff.1 ((ha.st_eq_iff (c := .illegal)).1 h1)

/-- Settles O12: a step answers by the entry of the word's fault or with the flags as they were. -/
theorem faultEntryWritesOnlyTheFlag : Obligations.FaultEntryWritesOnlyTheFlag := by
  unfold Obligations.FaultEntryWritesOnlyTheFlag
  intro s t w rest hin hstep
  obtain ⟨u, r, hu, ha⟩ := step_answers hin
  cases hu.symm.trans hstep
  exact ⟨r, ha.responses, ha.eq_afterFault, ha.err_of_st_eq_zero⟩

/-- Settles O13: R206's order read off the word's number gives the number of the word's fault. -/
theorem faultsFollowThePriorityOrder : Obligations.FaultsFollowThePriorityOrder := by
  unfold Obligations.FaultsFollowThePriorityOrder
  intro s w rest hin
  obtain ⟨t, r, ht, ha⟩ := step_answers hin
  rw [faultByPriority_eq]
  exact ⟨t, r, ht, ha.responses, ha.st_toNat, ha.err_eq⟩

/-- Settles O16: `run_faultFree_iff`, from a state with no flag set. -/
theorem flagsStayZeroExactlyWithoutFault : Obligations.FlagsStayZeroExactlyWithoutFault := by
  unfold Obligations.FlagsStayZeroExactlyWithoutFault
  intro ws s hin hs
  obtain ⟨t, rs, hrun, hresp, hiff⟩ := run_faultFree_iff ws hin
  exact ⟨t, rs, hrun, hresp, hiff.trans (and_iff_right hs)⟩

/-- Settles O14: a command answers by its fault, and `commandFault_eq_nocfg_iff` says when that is ERR_NOCFG. -/
theorem unconfiguredUseRaisesErrNocfg : Obligations.UnconfiguredUseRaisesErrNocfg := by
  unfold Obligations.UnconfiguredUseRaisesErrNocfg
  intro i s
  obtain ⟨t, r, ht, ha⟩ := exec_answers i s
  refine ⟨t, r, ht, ha.responses, (ha.st_eq_iff (c := .nocfg)).trans commandFault_eq_nocfg_iff, fun h => ?_⟩
  simpa [h] using ha.eq_afterFault

/-- Settles O15: a command answers by its fault, and `commandFault_eq_seq_iff` says when that is ERR_SEQ. -/
theorem nextOnClosedUnitRaisesErrSeq : Obligations.NextOnClosedUnitRaisesErrSeq := by
  unfold Obligations.NextOnClosedUnitRaisesErrSeq
  intro i s
  obtain ⟨t, r, ht, ha⟩ := exec_answers i s
  refine ⟨t, r, ht, ha.responses, (ha.st_eq_iff (c := .seq)).trans commandFault_eq_seq_iff, fun h => ?_⟩
  simpa [h] using ha.eq_afterFault

end Sys2Proof

/-! SUPPORT. The zero residual (spec/70_reset_and_hazards.md R234): the residual's sign is that of the difference and it is
never 0, so the encoder's output stands only where step 5's clip absorbs it. -/

namespace Sys2Proof.Machine

/-- Clipping to [-1, 1] keeps the sign (R8). -/
theorem clip_one_nonneg_iff {v : ℚ} : 0 ≤ clip v (-1) 1 ↔ 0 ≤ v := by
  unfold clip
  split_ifs <;> constructor <;> intro <;> linarith

/-- A nonzero step from within [-1, 1] is absorbed by the clip exactly at a rail, outwards. -/
theorem clip_add_eq_self_iff {p d : ℚ} (hlo : -1 ≤ p) (hhi : p ≤ 1) (hd : d ≠ 0) :
    clip (p + d) (-1) 1 = p ↔ (p = 1 ∧ 0 < d) ∨ (p = -1 ∧ d < 0) := by
  constructor
  · intro hclip
    unfold clip at hclip
    split_ifs at hclip with hbelow habove
    · exact .inr ⟨hclip.symm, by linarith⟩
    · exact .inl ⟨hclip.symm, by linarith⟩
    · exact absurd (by linarith) hd
  · rintro (⟨rfl, hpos⟩ | ⟨rfl, hneg⟩)
    · exact clip_of_ge (by norm_num) (by linarith)
    · exact clip_of_le (by norm_num) (by linarith)

section Transition

variable {b : Nat} (hb : 1 ≤ b)
include hb

/-- A negative value is below the tie at zero, so its level is a lower one (R11). -/
theorem Qidx_lt_of_neg {v : ℚ} (hv : v < 0) : Qidx b v < 2 ^ (b - 1) := by
  have hvM : v * levelMax b < 0 := mul_neg_of_neg_of_pos hv (levelMaxQ_pos hb)
  have hM := levelMaxQ_eq hb
  rw [Qidx, rnd, Int.floor_lt]
  push_cast
  linarith

/-- The level nearest to a value is never 0: it is positive exactly for the values from 0 up (R10, R11). -/
theorem Q_pos_iff {v : ℚ} : 0 < Q b v ↔ 0 ≤ v := by
  have hhalf : (0 : ℚ) < 1 / levelMax b := one_div_pos.2 (levelMaxQ_pos hb)
  constructor
  · contrapose!
    intro hv
    have hle : Q b v ≤ lvl b (2 ^ (b - 1) - 1) := lvl_mono hb (Int.le_sub_one_of_lt (Qidx_lt_of_neg hb hv))
    rw [lvl_lower_middle hb] at hle
    linarith
  · intro hv
    calc (0 : ℚ) < 1 / levelMax b := hhalf
      _ = Q b 0 := (Q_zero hb).symm
      _ ≤ Q b v := Q_mono hb hv

/-- 0 is not a level: `2k - M` is odd (R10). -/
theorem lvl_ne_zero (k : Int) : lvl b k ≠ 0 := by
  intro h0
  have hlvl := lvl_mul_levelMax hb k
  rw [h0, zero_mul] at hlvl
  have hint : 0 = 2 * k - levelMax b := by exact_mod_cast hlvl
  have hodd := levelMax_odd hb
  omega

theorem encodeTransition_dq_ne_zero (p x : ℚ) : (encodeTransition b p x).dq ≠ 0 :=
  mul_ne_zero (lvl_ne_zero hb _) two_ne_zero

/-- The residual is positive exactly where the sample is not below the held value (R121, R234). -/
theorem encodeTransition_dq_pos_iff (p x : ℚ) : 0 < (encodeTransition b p x).dq ↔ p ≤ x := by
  calc 0 < Q b (clip ((x - p) / 2) (-1) 1) * 2
      ↔ 0 < Q b (clip ((x - p) / 2) (-1) 1) := mul_pos_iff_of_pos_right two_pos
    _ ↔ 0 ≤ (x - p) / 2 := by rw [Q_pos_iff hb, clip_one_nonneg_iff]
    _ ↔ p ≤ x := by rw [le_div_iff₀ two_pos, zero_mul, sub_nonneg]

theorem encodeTransition_dq_neg_iff (p x : ℚ) : (encodeTransition b p x).dq < 0 ↔ x < p := by
  rw [← not_le (a := p), ← encodeTransition_dq_pos_iff hb p x, not_lt, (encodeTransition_dq_ne_zero hb p x).le_iff_lt]

/-- The output stands exactly at a rail, with the sample pushing outwards (R234). -/
theorem encodeTransition_recon_eq_iff {p x : ℚ} (hlo : -1 ≤ p) (hhi : p ≤ 1) :
    (encodeTransition b p x).recon = p ↔ (p = 1 ∧ 1 ≤ x) ∨ (p = -1 ∧ x < -1) := by
  calc clip (p + (encodeTransition b p x).dq) (-1) 1 = p
      ↔ (p = 1 ∧ 0 < (encodeTransition b p x).dq) ∨ (p = -1 ∧ (encodeTransition b p x).dq < 0) :=
        clip_add_eq_self_iff hlo hhi (encodeTransition_dq_ne_zero hb p x)
    _ ↔ (p = 1 ∧ p ≤ x) ∨ (p = -1 ∧ x < p) := by
        rw [encodeTransition_dq_pos_iff hb, encodeTransition_dq_neg_iff hb]
    _ ↔ (p = 1 ∧ 1 ≤ x) ∨ (p = -1 ∧ x < -1) := by
        refine or_congr (and_congr_right ?_) (and_congr_right ?_) <;> rintro rfl <;> rfl

end Transition

/-- A stream advanced stands as it was exactly when the value it holds does (R24, R25, R12). -/
theorem advanceStream_eq_iff {u : StreamRegs} (h1 : 1 ≤ u.bits.toNat) (k : Int) : advanceStream u k = u ↔
    portValue u.bits.toNat (advanceStream u k).prev = portValue u.bits.toNat u.prev := by
  constructor
  · intro h
    rw [h]
  · intro h
    exact congrArg (fun p => { u with prev := p }) (eq_of_portValue_eq h1 h)

end Sys2Proof.Machine

namespace Sys2Proof

open Machine

/-- Settles O32: the encoder stands when PREV does, and the rational transition says when that is. -/
theorem encoderOutputStandsOnlyAtARail : Obligations.EncoderOutputStandsOnlyAtARail := by
  unfold Obligations.EncoderOutputStandsOnlyAtARail
  intro x s hok h
  obtain ⟨h1, -⟩ := hok h
  obtain ⟨hlo, hhi⟩ := prev_mem hok h
  refine ⟨_, exec_encn_advances x h, ?_⟩
  rw [respond_enc, advanceStream_eq_iff h1, portValue_advanceStream hok h, ← encodeTransition_eq hok h,
    encodeTransition_recon_eq_iff h1 hlo hhi]

end Sys2Proof
